-- ==== Sys2Proof/Word.lean ====
section
/-! DEFINITION. The word types of the ADXL355 register codec (spec 00_scope.md R7, R8). -/

namespace Sys2Proof

/-- A sensor register, a bus byte, an operand byte: 8 bits (R7 `REG_WIDTH`, R8). -/
abbrev Byte := BitVec 8

/-- The 7-bit bus address of one sensor (R7 `DEV_ADDR_WIDTH`, R40). -/
abbrev DevAddr := BitVec 7

/-- The 8-bit address of one byte register inside a sensor (R7 `REG_ADDR_WIDTH`, R40). -/
abbrev RegAddr := BitVec 8

/-- One 16-bit host command word (R7 `CMD_WIDTH`, R60). -/
abbrev CmdWord := BitVec 16

/-- The 64 bits of an IEEE 754 binary64 value (R7, R12). -/
abbrev F64 := BitVec 64

end Sys2Proof
end

