-- ==== Sys2Proof/Config.lean ====
section
/-! DEFINITION. What the environment and the sensor fix outside the codec: the default device address,
the sensor's contents at the start of a run, the moves of the environment agent, and the free values. -/

namespace Sys2Proof

/-- The default of the device address, R7 and R24. -/
def Config.defaultDevAddr : DevAddr := 0x1D

/-- `initRegs` (R7, R31, R231, decision D17): what each register of each sensor holds at the start of a run.
The spec takes it as a parameter with no value assumed, so nothing here can evaluate it (log 1). -/
opaque Config.initRegs : DevAddr → RegAddr → Byte

/-- One step of the environment agent of R48: some actor other than the codec (the sensor's own conversion,
another bus master, another instance or thread) leaves `val` in register `reg` of device `dev`. -/
structure RegWrite where
  dev : DevAddr
  reg : RegAddr
  val : Byte
  deriving DecidableEq, Repr, Inhabited

/-- How the environment answers one transaction (R44, R48, decision D28). -/
inductive Draw where
  /-- No answer yet: the transaction is still blocking (I17; R238 promises no answer in any time). -/
  | wait
  /-- The transaction succeeds at the addressed registers (R44 to R46, R51). -/
  | serve
  /-- The transaction answers `Fail`. After a failed write the addressed register holds `left`,
  which is any byte (R56, decision D12); a failed read leaves the registers alone. -/
  | fail (left : Byte)
  /-- A block read answers the bytes `bs`, whose number differs from the requested length (R57).
  Where it does not (or the transaction is no block read), the draw is read as `serve` (log 6). -/
  | badLength (bs : List Byte)
  deriving DecidableEq, Repr, Inhabited

/-- One turn of the environment: the steps it takes before the codec's next transaction, in order, and
its answer to that transaction. Nothing of it falls inside the transaction (R45, R48). -/
structure Turn where
  acts : List RegWrite
  draw : Draw
  deriving DecidableEq, Repr, Inhabited

/-- The environment's turns once those listed in the state are used up: free, one for each value of the
state's counter `draws` (R48, decisions D16, D28; log 2). -/
opaque Config.envTurn : Nat → Turn

/-- The payload of the quiet NaN a binary64 operation answers: IEEE 754 leaves it open, so does this
model (log 9). No temperature code reaches it (R161). -/
opaque Config.nanPayload : BitVec 51

end Sys2Proof
end

