-- ==== Sys2Proof/Syntax.lean ====
section
/-! DEFINITION. The 13 host commands of codec command set 1 (R3, R62), one constructor per row of the
opcode table. Register numbers and addressing modes do not exist (R21, R43); the only operand is the byte of
SET_RANGE and SET_FILTER (R61). -/

namespace Sys2Proof

inductive Instr where
  /-- BEGIN, `begin()`: R103. -/
  | beginCmd
  /-- END, `end()`: R104. -/
  | endCmd
  /-- IS_RUNNING, `isRunning()`: R105. -/
  | isRunning
  /-- GET_RANGE, `getRange()`: R124. -/
  | getRange
  /-- SET_RANGE a, `setRange(value)`: R125. -/
  | setRange (a : Byte)
  /-- GET_FILTER, `getLowpassFilter()`: R144. -/
  | getFilter
  /-- SET_FILTER a, `setLowpassFilter(value)`: R145. -/
  | setFilter (a : Byte)
  /-- GET_STATUS, `getStatus()`: R162. -/
  | getStatus
  /-- GET_TEMPERATURE, `getTemperature()`: R163. -/
  | getTemperature
  /-- GET_AXES, `getAxes()`: R183. -/
  | getAxes
  /-- GET_AXIS_X, `getAxisX()`: R184. -/
  | getAxisX
  /-- GET_AXIS_Y, `getAxisY()`: R185. -/
  | getAxisY
  /-- GET_AXIS_Z, `getAxisZ()`: R186. -/
  | getAxisZ
  deriving DecidableEq, Repr

end Sys2Proof
end

