-- ==== Sys2Proof/Machine/State.lean ====
section
/-! DEFINITION. The state of the codec and of the agents around it (10_state.md), as plain data, and the
reasons a step can stop. -/

namespace Sys2Proof.Machine

/-- One call on the Bus Transport (R44). -/
inductive Txn where
  | rdB (dev : DevAddr) (reg : RegAddr)
  | wrB (dev : DevAddr) (reg : RegAddr) (val : Byte)
  | rdBlk (dev : DevAddr) (reg : RegAddr) (len : Nat)
  deriving DecidableEq, Repr

/-- The answer of a transaction (R44). -/
inductive Answer where
  | byte (b : Byte)
  | done
  | bytes (bs : List Byte)
  | fail
  deriving DecidableEq, Repr

/-- The error kinds of R200. -/
inductive ErrKind where
  /-- R201: SET_RANGE or SET_FILTER with an operand outside its domain, before any transaction. -/
  | invalidArgument
  /-- R202: a transaction failed, or a block answer had the wrong length. -/
  | transportError
  /-- R204: the presented word decodes to no command. -/
  | illegalCommand
  deriving DecidableEq, Repr

/-- The value of a successful command, tagged with its result type (R15). `Int20` and `Axes` carry integers,
which the decoder keeps in [-524288, 524287] (R180). -/
inductive Value where
  | unit
  | bool (b : Bool)
  | rangeCode (c : BitVec 2)
  | filterCode (c : BitVec 4)
  | f64 (bits : F64)
  | int20 (v : Int)
  | axes (x y z : Int)
  deriving DecidableEq, Repr

/-- What a command returns (R200). -/
inductive Result where
  | ok (v : Value)
  | err (k : ErrKind)
  deriving DecidableEq, Repr

/-- One entry of the event history (R37). -/
inductive Event where
  | cmd (w : CmdWord)
  | txn (t : Txn) (a : Answer)
  | res (r : Result)
  deriving DecidableEq, Repr

/-- The sequencer state (R22): no command in progress, or command `cmd` in progress with `step` transactions
completed and `buf` the bytes they returned, in order. -/
inductive SeqState where
  | idle
  | busy (cmd : CmdWord) (step : Nat) (buf : List Byte)
  deriving DecidableEq, Repr

/-- The register space of all devices (R40): the cells that something has written since the start of the run,
in the canonical form of `Memory.wf` (Ops.lean). A location that is not listed still holds what `initRegs` gave it. -/
abbrev Memory := List Host.Cell

structure State where
  /-- The 7-bit bus address of this instance's sensor, never written after creation (R20). -/
  devAddr : DevAddr
  /-- The sequencer (R22). -/
  seq : SeqState
  /-- The register space of the sensors (R25 to R32, R40). -/
  mem : Memory
  /-- The event history, oldest first (R37). -/
  trace : List Event
  /-- The command words the host will present, next one first (R36). The model's own field. -/
  host : List CmdWord
  /-- The environment's coming turns, next one first (R48). The model's own field. -/
  env : List Turn
  /-- How many free turns were drawn after `env` ran out (log 2). The model's own field. -/
  draws : Nat
  deriving DecidableEq, Repr

/-- Creation of an instance, which is the codec's reset (R24, R230), with the creator's device address, on a
register space that holds `mem`, before hosts and environments that will do as `host` and `env` say. -/
def State.create (d : DevAddr) (mem : Memory) (host : List CmdWord) (env : List Turn) : State :=
  { devAddr := d, seq := .idle, mem := mem, trace := [], host := host, env := env, draws := 0 }

/-- The machine right after creation with the default address (R24); no register of the space has been
written, so each holds `initRegs` (R31, log 1). -/
def State.reset : State := State.create Config.defaultDevAddr [] [] []

/-- Why the machine stops. Neither is in the spec: both are raised only in sequencer states that no command reaches
(log 5), and `Inv` (Safety.lean) rules both out. -/
inductive Fault where
  /-- Raised by `step` in a `Busy` state whose `cmd` decodes to no command. Safe: R36 makes no such state. -/
  | busyWithNoCommand
  /-- Raised by a meaning in a `Busy` state whose `step` and `buf` fit no transaction of the command's
  pseudocode. Safe: R22 and R38 make no such state. -/
  | sequencerOffPath
  deriving DecidableEq, Repr

/-- Why an instruction has no meaning. -/
inductive Refusal where
  /-- Raised by `exec` for an instruction without a meaning. Safe. No arm of this model uses it. -/
  | notModelled (mnemonic : String)
  deriving DecidableEq, Repr

end Sys2Proof.Machine
end

