-- ==== Sys2Proof/Machine/Flags.lean ====
section
/-! DEFINITION. The codec has no flags and no condition codes (R21): the only status it reports is the result of
each command. This file holds what stands in their place: the one-bit decoders of POWER_CTL and STATUS, the numeric
result codes, and the result type each command reports. -/

namespace Sys2Proof.Machine

/-- R100: STANDBY, bit 0 of POWER_CTL, is 1. -/
def standby (p : Byte) : Bool := p.getLsbD 0

/-- R100: measuring, bit 0 of POWER_CTL is 0. -/
def running (p : Byte) : Bool := !p.getLsbD 0

/-- R160: DATA_RDY, bit 0 of STATUS, is 1. -/
def dataReady (b : Byte) : Bool := b.getLsbD 0

/-- The number of an error kind (R200). -/
def ErrKind.code : ErrKind → Nat
  | .invalidArgument => 1
  | .transportError => 2
  | .illegalCommand => 3

/-- The numeric result code for a host that needs one (R200). -/
def Result.code : Result → Nat
  | .ok _ => 0
  | .err k => k.code

/-- The result types of R15. -/
inductive ResultType where
  | unit | bool | rangeCode | filterCode | f64 | int20 | axes
  deriving DecidableEq, Repr

/-- R15: an `Int20` is an integer in [-524288, 524287]. -/
def isInt20 (v : Int) : Bool := decide (-524288 ≤ v) && decide (v ≤ 524287)

/-- The value belongs to the result type (R15). -/
def Value.hasType : Value → ResultType → Bool
  | .unit, .unit => true
  | .bool _, .bool => true
  | .rangeCode _, .rangeCode => true
  | .filterCode _, .filterCode => true
  | .f64 _, .f64 => true
  | .int20 v, .int20 => isInt20 v
  | .axes x y z, .axes => isInt20 x && isInt20 y && isInt20 z
  | _, _ => false

/-- The result type of each command, R62. -/
def resultType : Instr → ResultType
  | .beginCmd => .unit
  | .endCmd => .unit
  | .isRunning => .bool
  | .getRange => .rangeCode
  | .setRange _ => .unit
  | .getFilter => .filterCode
  | .setFilter _ => .unit
  | .getStatus => .bool
  | .getTemperature => .f64
  | .getAxes => .axes
  | .getAxisX => .int20
  | .getAxisY => .int20
  | .getAxisZ => .int20

end Sys2Proof.Machine
end

