-- ==== Sys2Proof/WellFormed.lean ====
section
/-! DEFINITION. What can be encoded. The operand of SET_RANGE and SET_FILTER as the host holds it is any
integer; only 0 to 255 fits ARG (R61, decision D23). `Instr` carries the operand as a byte, so every `Instr` is
encodable, and the one check stands where a host value becomes a byte. Whether a byte is a legal range or filter
code is no matter of form: it is checked when the command runs (R63). -/

namespace Sys2Proof

/-- A host value that an ARG byte can hold (R61). -/
def operandInRange (v : Int) : Bool := decide (0 ≤ v) && decide (v ≤ 255)

/-- An accessor call as the host makes it: an accessor without argument, or one of the two setters with a
host integer (R3, R61). -/
inductive HostCall where
  | plain (i : Instr)
  | setRange (v : Int)
  | setLowpassFilter (v : Int)
  deriving DecidableEq, Repr

/-- The command takes an operand (R60: ARG is 0x00 for every other command). -/
def Instr.takesOperand : Instr → Bool
  | .beginCmd => false
  | .endCmd => false
  | .isRunning => false
  | .getRange => false
  | .setRange _ => true
  | .getFilter => false
  | .setFilter _ => true
  | .getStatus => false
  | .getTemperature => false
  | .getAxes => false
  | .getAxisX => false
  | .getAxisY => false
  | .getAxisZ => false

/-- The call can be encoded: a setter's value is in 0 to 255, and no operand-taking command is called
without its value (R61, R66). -/
def HostCall.wellFormed : HostCall → Bool
  | .plain i => !i.takesOperand
  | .setRange v => operandInRange v
  | .setLowpassFilter v => operandInRange v

end Sys2Proof
end

