-- ==== Sys2Proof/Decode.lean ====
section
/-! DEFINITION. The decoder of R63, total on all 2^16 words, and the encoder written from R60 and R62. -/

namespace Sys2Proof

/-- Why a word is no command. The spec has one outcome, `Illegal` (R63); the two reasons are this model's
names for the two ways the decode table gives it. -/
inductive IllegalWord where
  /-- OP stands in no row of the opcode map. -/
  | unassignedOp
  /-- OP is a command without operand and ARG is not 0x00. -/
  | argNotZero
  deriving DecidableEq, Repr

/-- The outcome of R63: `Command ⊕ Illegal`. -/
inductive Decoded where
  | command (i : Instr)
  | illegal (why : IllegalWord)
  deriving DecidableEq, Repr

/-- OP, bits 15:8 (R60). -/
def opField (w : CmdWord) : Byte := w.extractLsb' 8 8

/-- ARG, bits 7:0 (R60). -/
def argField (w : CmdWord) : Byte := w.extractLsb' 0 8

/-- A command without operand: its ARG must be 0x00 (R60, R63). -/
def decodePlain (arg : Byte) (i : Instr) : Decoded :=
  if arg = 0 then .command i else .illegal .argNotZero

/-- R63, row by row. SET_RANGE and SET_FILTER decode for every ARG. Every command is one word of 16 bits (R65). -/
def decode (w : CmdWord) : Decoded :=
  let arg := argField w
  match (opField w).toNat with
  | 0x01 => decodePlain arg .beginCmd
  | 0x02 => decodePlain arg .endCmd
  | 0x03 => decodePlain arg .isRunning
  | 0x10 => decodePlain arg .getRange
  | 0x11 => .command (.setRange arg)
  | 0x20 => decodePlain arg .getFilter
  | 0x21 => .command (.setFilter arg)
  | 0x30 => decodePlain arg .getStatus
  | 0x31 => decodePlain arg .getTemperature
  | 0x40 => decodePlain arg .getAxes
  | 0x41 => decodePlain arg .getAxisX
  | 0x42 => decodePlain arg .getAxisY
  | 0x43 => decodePlain arg .getAxisZ
  | _ => .illegal .unassignedOp

/-- The command of a decoded word, if it is one. -/
def Decoded.instr? : Decoded → Option Instr
  | .command i => some i
  | .illegal _ => none

/-- Whether a decoded word is a command (R63). -/
def Decoded.isCommand : Decoded → Bool
  | .command _ => true
  | .illegal _ => false

/-- The OP value of R62. -/
def opOf : Instr → Byte
  | .beginCmd => 0x01
  | .endCmd => 0x02
  | .isRunning => 0x03
  | .getRange => 0x10
  | .setRange _ => 0x11
  | .getFilter => 0x20
  | .setFilter _ => 0x21
  | .getStatus => 0x30
  | .getTemperature => 0x31
  | .getAxes => 0x40
  | .getAxisX => 0x41
  | .getAxisY => 0x42
  | .getAxisZ => 0x43

/-- The ARG value of R60 to R62: the operand unchanged, 0x00 elsewhere. -/
def argOf : Instr → Byte
  | .beginCmd => 0x00
  | .endCmd => 0x00
  | .isRunning => 0x00
  | .getRange => 0x00
  | .setRange a => a
  | .getFilter => 0x00
  | .setFilter a => a
  | .getStatus => 0x00
  | .getTemperature => 0x00
  | .getAxes => 0x00
  | .getAxisX => 0x00
  | .getAxisY => 0x00
  | .getAxisZ => 0x00

/-- The command word: OP above ARG (R60, R8 concatenation). -/
def encode (i : Instr) : CmdWord := opOf i ++ argOf i

/-- A host value as an operand byte, refused unless it is 0 to 255 (R61). -/
def operandOfHost (v : Int) : Option Byte :=
  if operandInRange v then some (BitVec.ofInt 8 v) else none

/-- The command word of an accessor call; an ill-formed call is refused before any command exists (R61). -/
def encodeCall : HostCall → Option CmdWord
  | .plain i => if i.takesOperand then none else some (encode i)
  | .setRange v => (operandOfHost v).map fun a => encode (.setRange a)
  | .setLowpassFilter v => (operandOfHost v).map fun a => encode (.setFilter a)

/-- The 16-bit word the host presents for table bits `w` of a row of `nbits` bits; the bits above `nbits`
are zero. A command word is one 16-bit value with no byte order (R42, D19), so there is nothing to lay out. -/
def tableWord (nbits w : Nat) : CmdWord := BitVec.ofNat 16 (w % 2 ^ nbits)

/-- The decoder on a row's bits as spec/opcode_table.json numbers them. -/
def decodeTableWord (nbits w : Nat) : Option Instr :=
  if w % 2 ^ nbits < 2 ^ 16 then (decode (tableWord nbits w)).instr? else none

end Sys2Proof
end

