-- ==== Sys2Proof/Machine/Float.lean ====
section
/-! DEFINITION. The floating-point primitives of R12: IEEE 754 binary64, round to nearest, ties to even.
A finite value is handled exactly, as a whole number of units of 2^-1074 (the least positive subnormal);
each operation computes the exact result and rounds once. -/

namespace Sys2Proof.Machine

/-- The number of units of 2^-1074 in 1. -/
def f64One : Nat := 2 ^ 1074

/-- The sign bit (R12: binary64, bit 63). -/
def f64Neg (x : F64) : Bool := x.getLsbD 63

/-- The biased exponent, bits 62:52. -/
def f64Exp (x : F64) : Nat := (x.extractLsb' 52 11).toNat

/-- The fraction, bits 51:0. -/
def f64Frac (x : F64) : Nat := (x.extractLsb' 0 52).toNat

def f64IsFinite (x : F64) : Bool := f64Exp x != 0x7FF

def f64IsNaN (x : F64) : Bool := f64Exp x == 0x7FF && f64Frac x != 0

def f64IsInf (x : F64) : Bool := f64Exp x == 0x7FF && f64Frac x == 0

/-- The magnitude of a finite value in units of 2^-1074. -/
def f64Mag (x : F64) : Nat :=
  if f64Exp x = 0 then f64Frac x else (2 ^ 52 + f64Frac x) * 2 ^ (f64Exp x - 1)

/-- A finite value, exactly, as an integer number of units of 2^-1074. -/
def f64Units (x : F64) : Int :=
  if f64Neg x then -(f64Mag x : Int) else (f64Mag x : Int)

/-- The bits of a value from its sign and its magnitude bits 62:0. -/
def f64Pack (neg : Bool) (mag : Nat) : F64 :=
  BitVec.ofNat 64 (mag + if neg then 2 ^ 63 else 0)

def f64Zero (neg : Bool) : F64 := f64Pack neg 0

def f64Inf (neg : Bool) : F64 := f64Pack neg (0x7FF * 2 ^ 52)

/-- A quiet NaN, its payload free (log 9). -/
def f64NaN : F64 := f64Pack false (0x7FF * 2 ^ 52 + 2 ^ 51 + Config.nanPayload.toNat)

/-- `n / d` to the nearest integer, a tie to the even one. -/
def roundHalfEven (n d : Nat) : Nat :=
  if 2 * (n % d) < d then n / d
  else if d < 2 * (n % d) then n / d + 1
  else n / d + n / d % 2

/-- `n / d` scaled by `2^-e`, as a numerator and a denominator. -/
def scaleBy (n d : Nat) (e : Int) : Nat × Nat :=
  (n * 2 ^ (-e).toNat, d * 2 ^ e.toNat)

/-- The exponent `e` of the rounded value of `n / d` (both positive): the significand `n / d / 2^e` has 53 bits,
or `e` is the least exponent -1074. -/
def f64Scale (n d : Nat) : Int :=
  let e : Int := (n.log2 : Int) - (d.log2 : Int) - 52
  let s := scaleBy n d e
  max (if s.1 / s.2 < 2 ^ 52 then e - 1 else e) (-1074)

/-- The magnitude bits 62:0 of the binary64 value nearest to `n / d`, ties to even; a significand
that rounds up to the next power of two carries into the exponent, and past the largest exponent the
result is infinity. -/
def f64RoundMag (n d : Nat) : Nat :=
  let e := f64Scale n d
  let s := scaleBy n d e
  min ((e + 1074).toNat * 2 ^ 52 + roundHalfEven s.1 s.2) (0x7FF * 2 ^ 52)

/-- `± n / d` rounded to binary64 (R12: to nearest, ties to even). -/
def f64Round (neg : Bool) (n d : Nat) : F64 :=
  if n = 0 then f64Zero neg else f64Pack neg (f64RoundMag n d)

/-- R12 `f64(q)` for the rational `q = n / d`. -/
def f64 (n : Int) (d : Nat) : F64 := f64Round (n < 0) n.natAbs d

/-- R12 `fadd`. -/
def fadd (x y : F64) : F64 :=
  if f64IsNaN x || f64IsNaN y then f64NaN
  else if f64IsInf x then (if f64IsInf y && f64Neg x != f64Neg y then f64NaN else x)
  else if f64IsInf y then y
  else if f64Units x + f64Units y = 0 then f64Zero (f64Neg x && f64Neg y)
  else f64 (f64Units x + f64Units y) f64One

/-- The value with its sign bit turned. -/
def f64Negate (x : F64) : F64 := x ^^^ (1#64 <<< 63)

/-- R12 `fsub`. -/
def fsub (x y : F64) : F64 := fadd x (f64Negate y)

/-- R12 `fdiv`. -/
def fdiv (x y : F64) : F64 :=
  let neg := f64Neg x != f64Neg y
  if f64IsNaN x || f64IsNaN y then f64NaN
  else if f64IsInf x then (if f64IsInf y then f64NaN else f64Inf neg)
  else if f64IsInf y then f64Zero neg
  else if f64Mag y = 0 then (if f64Mag x = 0 then f64NaN else f64Inf neg)
  else f64Round neg (f64Mag x) (f64Mag y)

end Sys2Proof.Machine
end

