-- ==== Sys2Proof/Machine/Operands.lean ====
section
/-! DEFINITION. The register map (R25 to R30, R41), the operand checks (R123, R143), the field decoders and merges
(R101, R121, R122, R141, R142), the data decoders (R161, R180, R181) and the name tables (R120, R140, R147). -/

namespace Sys2Proof.Machine

/-! ## Register map (R41) -/

/-- R28. -/
def regStatus : RegAddr := 0x04
/-- R29, the source's TEMP_START. -/
def regTemp : RegAddr := 0x06
/-- R30, the X-axis most significant byte. -/
def regAxes : RegAddr := 0x08
/-- R27. -/
def regFilter : RegAddr := 0x28
/-- R26. -/
def regRange : RegAddr := 0x2C
/-- R25. -/
def regPowerCtl : RegAddr := 0x2D

/-- The key of a bus location: `(dev, reg)` numbered with the register in the low 8 bits (R40). -/
def location (dev : DevAddr) (reg : RegAddr) : Nat := dev.toNat * 256 + reg.toNat

/-! ## Fields (R70) -/

/-- R101: bit 0 cleared, bits 7:1 kept. -/
def clearStandby (p : Byte) : Byte := p &&& 0xFE

/-- R101: bit 0 set, bits 7:1 kept. -/
def setStandby (p : Byte) : Byte := p ||| 0x01

/-- R121. -/
def mergeRange (b c : Byte) : Byte := (b &&& 0xFC) ||| c

/-- R122: the low 2 bits. -/
def decodeRange (b : Byte) : BitVec 2 := (b &&& 0x03).setWidth 2

/-- R123. -/
def validRange (a : Byte) : Bool := a == 1 || a == 2 || a == 3

/-- R141. -/
def mergeFilter (b c : Byte) : Byte := (b &&& 0xF0) ||| c

/-- R142: the low 4 bits. -/
def decodeFilter (b : Byte) : BitVec 4 := (b &&& 0x0F).setWidth 4

/-- R143. -/
def validFilter (a : Byte) : Bool := decide (a.toNat ≤ 10)

/-! ## Data decoders -/

/-- R69: the raw temperature code, unsigned and big-endian. -/
def tempCode (b0 b1 : Byte) : BitVec 16 := b0 ++ b1

/-- R12 `F64(9.05)`. -/
def f64_9_05 : F64 := f64 905 100

/-- R12 `F64(19.21)`. -/
def f64_19_21 : F64 := f64 1921 100

/-- R161, in exactly its order, with no check of the range and no clamp (R235): `fadd(fdiv(f64(1852 - T), F64(9.05)), F64(19.21))`. -/
def tempCelsius (t : BitVec 16) : F64 :=
  fadd (fdiv (f64 (1852 - (t.toNat : Int)) 1) f64_9_05) f64_19_21

/-- R180: three bytes, most significant first, to a signed 20-bit sample in raw counts (R14); the low 4 bits are padding. -/
def decodeAxis (b3 b2 b1 : Byte) : Int :=
  let g := b3.toNat * 65536 + b2.toNat * 256 + b1.toNat
  let u := g >>> 4
  if u.testBit 19 then (u : Int) - 1048576 else (u : Int)

/-- R181: the three lanes of one 9-byte AXES block; a block of another length has no decode (R57). -/
def decodeAxes : List Byte → Option (Int × Int × Int)
  | [d0, d1, d2, d3, d4, d5, d6, d7, d8] =>
    some (decodeAxis d0 d1 d2, decodeAxis d3 d4 d5, decodeAxis d6 d7 d8)
  | _ => none

/-! ## Name tables, data only -/

/-- The names of the RANGE codes, R120; RESERVED is the spec's name for code 0 (D8). -/
inductive RangeName where
  | reserved | g2 | g4 | g8
  deriving DecidableEq, Repr

/-- R120. -/
def rangeName (c : BitVec 2) : RangeName :=
  match c.toNat with
  | 0 => .reserved
  | 1 => .g2
  | 2 => .g4
  | _ => .g8

/-- R140: the frequency of a filter code, as a fraction of Hz: code k is 4000 / 2^k, and codes 11 to 15 have none. -/
def filterFrequency (c : BitVec 4) : Option (Nat × Nat) :=
  if c.toNat ≤ 10 then some (4000, 2 ^ c.toNat) else none

/-- R147: the display label of a filter code (R140's table). -/
def filterLabel (c : BitVec 4) : Option String :=
  match c.toNat with
  | 0 => some "4000"
  | 1 => some "2000"
  | 2 => some "1000"
  | 3 => some "500"
  | 4 => some "250"
  | 5 => some "125"
  | 6 => some "62.5"
  | 7 => some "31.25"
  | 8 => some "15.625"
  | 9 => some "7.813"
  | 10 => some "3.906"
  | _ => none

end Sys2Proof.Machine
end

