-- ==== Sys2Proof/Machine/Ops.lean ====
section
/-! DEFINITION. The shared operations: the register space, the environment's part of a transaction, the event
history, ending a command with a value or an error (R207, R208), accepting a command (R36) and the sequencer step
(R38). -/

namespace Sys2Proof.Machine

/-! ## The register space (R40) -/

/-- The keys rise strictly from above `lo`, and all are locations of the space (below 2^15). -/
def Memory.wfAbove : Nat → Memory → Bool
  | _, [] => true
  | lo, (a, _) :: m => decide (lo ≤ a) && decide (a < 2 ^ 15) && Memory.wfAbove (a + 1) m

/-- The canonical form: keys strictly rising, each a location of the space. An unlisted location has no listed
value, so no entry can repeat it, and equal contents are equal lists (log 1). -/
def Memory.wf (m : Memory) : Bool := Memory.wfAbove 0 m

/-- The listed byte at a location, if one is listed. -/
def Memory.lookup : Memory → Nat → Option Byte
  | [], _ => none
  | (b, x) :: m, a => if b = a then some x else Memory.lookup m a

/-- Writing one byte, in place or at its place in the order. -/
def Memory.write : Memory → Nat → Byte → Memory
  | [], a, v => [(a, v)]
  | (b, x) :: m, a, v =>
    if a < b then (a, v) :: (b, x) :: m
    else if a = b then (a, v) :: m
    else (b, x) :: Memory.write m a v

/-- The byte a register holds: the listed one, or what `initRegs` gave it (R31). -/
def readReg (m : Memory) (dev : DevAddr) (reg : RegAddr) : Byte :=
  (Memory.lookup m (location dev reg)).getD (Config.initRegs dev reg)

/-- One byte put into a register. -/
def writeReg (m : Memory) (dev : DevAddr) (reg : RegAddr) (v : Byte) : Memory :=
  Memory.write m (location dev reg) v

/-- The `n` registers from `reg` on, at one instant (R45); byte i is the register at `reg + i` (R46). -/
def readRegs (m : Memory) (dev : DevAddr) (reg : RegAddr) (n : Nat) : List Byte :=
  (List.range n).map fun i => readReg m dev (reg + BitVec.ofNat 8 i)

/-- The environment's steps before a transaction, in order (R48). -/
def applyActs (acts : List RegWrite) (m : Memory) : Memory :=
  acts.foldl (fun m w => writeReg m w.dev w.reg w.val) m

/-! ## A transaction and its answer (R44, R48, R51, R56, R57) -/

/-- The transaction served at the addressed registers. -/
def serveTxn (t : Txn) (m : Memory) : Answer × Memory :=
  match t with
  | .rdB d r => (.byte (readReg m d r), m)
  | .wrB d r v => (.done, writeReg m d r v)
  | .rdBlk d r n => (.bytes (readRegs m d r n), m)

/-- The transaction failed: a read leaves the registers alone, a write leaves `left` in its register (R56). -/
def failTxn (left : Byte) (t : Txn) (m : Memory) : Answer × Memory :=
  match t with
  | .rdB _ _ => (.fail, m)
  | .wrB d r _ => (.fail, writeReg m d r left)
  | .rdBlk _ _ _ => (.fail, m)

/-- A block read answered with the wrong number of bytes (R57); otherwise as served (log 6). -/
def badLengthTxn (bs : List Byte) (t : Txn) (m : Memory) : Answer × Memory :=
  match t with
  | .rdB _ _ => serveTxn t m
  | .wrB _ _ _ => serveTxn t m
  | .rdBlk _ _ n => if bs.length = n then serveTxn t m else (.bytes bs, m)

/-- The environment's answer to a transaction and the register space after it; `none` while it does not
answer. -/
def answerTxn (draw : Draw) (t : Txn) (m : Memory) : Option (Answer × Memory) :=
  match draw with
  | .wait => none
  | .serve => some (serveTxn t m)
  | .fail left => some (failTxn left t m)
  | .badLength bs => some (badLengthTxn bs t m)

/-- The bytes a transaction adds to `buf`, or `none` where the codec takes the answer as a failure: `Fail`, a
block answer of the wrong length (R57), or an answer that is not of the transaction's kind (R44). -/
def acceptedBytes : Txn → Answer → Option (List Byte)
  | .rdB _ _, .byte b => some [b]
  | .wrB _ _ _, .done => some []
  | .rdBlk _ _ n, .bytes bs => if bs.length = n then some bs else none
  | _, _ => none

/-! ## Updates of the state -/

/-- One event at the end of the history (R37). -/
def State.record (s : State) (e : Event) : State := { s with trace := s.trace ++ [e] }

/-- The sequencer set. -/
def State.withSeq (s : State) (q : SeqState) : State := { s with seq := q }

/-- The register space set. -/
def State.withMem (s : State) (m : Memory) : State := { s with mem := m }

/-- The host's coming words set. -/
def State.withHost (s : State) (ws : List CmdWord) : State := { s with host := ws }

/-- A command's end: its result delivered to the host, the sequencer `Idle` and `buf` dropped (R22, R200). -/
def State.finish (s : State) (r : Result) : State := (s.record (.res r)).withSeq .idle

/-- ERROR ENTRY (R207): the one way any error is raised. Nothing else is saved, and there is no mode, mask, stack
or vector. -/
def State.raiseError (s : State) (k : ErrKind) : State := s.finish (.err k)

/-- RETURN (R11, R208): the one way a command succeeds. There is no return from an error: after either, the codec
is `Idle`. -/
def State.returnValue (s : State) (v : Value) : State := s.finish (.ok v)

/-- A presented word that decodes to no command (R36, R204): `Err(IllegalCommand)`, no transaction, still `Idle`. -/
def State.rejectWord (s : State) (w : CmdWord) : State := (s.record (.cmd w)).raiseError .illegalCommand

/-- The environment's next turn (R48): the first of the listed ones, or a free one. -/
def State.nextTurn (s : State) : Turn :=
  match s.env with
  | [] => Config.envTurn s.draws
  | t :: _ => t

/-- The state with that turn's steps taken and the turn used up. -/
def State.afterActs (s : State) : State :=
  match s.env with
  | [] => { s with mem := applyActs (Config.envTurn s.draws).acts s.mem, draws := s.draws + 1 }
  | t :: ts => { s with mem := applyActs t.acts s.mem, env := ts }

/-! ## The sequencer (R36, R38) -/

/-- The statement that stands next in a command's pseudocode: a transaction, `return v`, `raise E` (R10, R11), or
none, where the completed steps and their bytes fit no point of the pseudocode. -/
inductive Stmt where
  | txn (t : Txn)
  | ret (v : Value)
  | raise (k : ErrKind)
  | offPath
  deriving DecidableEq, Repr

/-- A command's pseudocode: the next statement after `step` transactions that returned the bytes `buf`. -/
abbrev Code := Nat → List Byte → Stmt

/-- Going on after a point of the pseudocode: wait in `Busy` for the next transaction, or end the command at
once (R36, R38.5). -/
def State.proceed (s : State) (code : Code) (cmd : CmdWord) (k : Nat) (buf : List Byte) :
    Host.Outcome State Fault Refusal :=
  match code k buf with
  | .txn _ => .next (s.withSeq (.busy cmd k buf))
  | .ret v => .next (s.returnValue v)
  | .raise e => .next (s.raiseError e)
  | .offPath => .fault .sequencerOffPath

/-- What the codec does with an answered transaction (R38.3 to R38.5). -/
def State.completeTxn (s : State) (code : Code) (cmd : CmdWord) (k : Nat) (buf : List Byte) (t : Txn) (a : Answer) :
    Host.Outcome State Fault Refusal :=
  match acceptedBytes t a with
  | none => .next ((s.record (.txn t a)).raiseError .transportError)
  | some bs => (s.record (.txn t a)).proceed code cmd (k + 1) (buf ++ bs)

/-- One sequencer step (R38): the environment's steps, the transaction, its answer, and what follows from it. While the
environment does not answer, the command stays where it is (I17). -/
def State.transact (s : State) (code : Code) (cmd : CmdWord) (k : Nat) (buf : List Byte) :
    Host.Outcome State Fault Refusal :=
  match code k buf with
  | .txn t =>
    match answerTxn s.nextTurn.draw t s.afterActs.mem with
    | none => .next s.afterActs
    | some (a, m) => (s.afterActs.withMem m).completeTxn code cmd k buf t a
  | .ret _ => .fault .sequencerOffPath
  | .raise _ => .fault .sequencerOffPath
  | .offPath => .fault .sequencerOffPath

/-- One step of a command with pseudocode `code` and word `w`: its acceptance when the codec is `Idle` (R36), its
next sequencer step when it is `Busy` (R38). -/
def State.command (s : State) (w : CmdWord) (code : Code) : Host.Outcome State Fault Refusal :=
  match s.seq with
  | .idle => (s.record (.cmd w)).proceed code w 0 []
  | .busy cmd k buf => s.transact code cmd k buf

end Sys2Proof.Machine
end

