-- ==== Sys2Proof/Machine/Axes.lean ====
section
/-! DEFINITION. GET_AXES, GET_AXIS_X, GET_AXIS_Y, GET_AXIS_Z (44_axes.md). -/

namespace Sys2Proof.Machine

/-- The shape the four commands share: one fresh 9-byte block read (R183 to R186), then a value of the decoded
lanes. -/
def codeAxesRead (value : Int × Int × Int → Value) (d : DevAddr) : Code
  | 0, [] => .txn (.rdBlk d regAxes 9)
  | 1, ds =>
    match decodeAxes ds with
    | some lanes => .ret (value lanes)
    | none => .offPath
  | _, _ => .offPath

/-- The pseudocode of R183. -/
def codeGetAxes : DevAddr → Code := codeAxesRead fun lanes => .axes lanes.1 lanes.2.1 lanes.2.2

/-- GET_AXES, R183. -/
def execGetAxes (s : State) : Host.Outcome State Fault Refusal :=
  s.command (encode .getAxes) (codeGetAxes s.devAddr)

/-- The pseudocode of R184. -/
def codeGetAxisX : DevAddr → Code := codeAxesRead fun lanes => .int20 lanes.1

/-- GET_AXIS_X, R184. -/
def execGetAxisX (s : State) : Host.Outcome State Fault Refusal :=
  s.command (encode .getAxisX) (codeGetAxisX s.devAddr)

/-- The pseudocode of R185. -/
def codeGetAxisY : DevAddr → Code := codeAxesRead fun lanes => .int20 lanes.2.1

/-- GET_AXIS_Y, R185. -/
def execGetAxisY (s : State) : Host.Outcome State Fault Refusal :=
  s.command (encode .getAxisY) (codeGetAxisY s.devAddr)

/-- The pseudocode of R186. -/
def codeGetAxisZ : DevAddr → Code := codeAxesRead fun lanes => .int20 lanes.2.2

/-- GET_AXIS_Z, R186. -/
def execGetAxisZ (s : State) : Host.Outcome State Fault Refusal :=
  s.command (encode .getAxisZ) (codeGetAxisZ s.devAddr)

end Sys2Proof.Machine
end

