-- ==== Sys2Proof/Machine/Filter.lean ====
section
/-! DEFINITION. GET_FILTER, SET_FILTER (42_filter.md). -/

namespace Sys2Proof.Machine

/-- The pseudocode of R144. -/
def codeGetFilter (d : DevAddr) : Code
  | 0, [] => .txn (.rdB d regFilter)
  | 1, [b] => .ret (.filterCode (decodeFilter b))
  | _, _ => .offPath

/-- GET_FILTER, R144. -/
def execGetFilter (s : State) : Host.Outcome State Fault Refusal :=
  s.command (encode .getFilter) (codeGetFilter s.devAddr)

/-- The pseudocode of R145: the operand is checked before any transaction. -/
def codeSetFilter (a : Byte) (d : DevAddr) : Code
  | 0, [] => if validFilter a then .txn (.rdB d regFilter) else .raise .invalidArgument
  | 1, [b] => .txn (.wrB d regFilter (mergeFilter b a))
  | 2, [_] => .ret .unit
  | _, _ => .offPath

/-- SET_FILTER a, R145. -/
def execSetFilter (a : Byte) (s : State) : Host.Outcome State Fault Refusal :=
  s.command (encode (.setFilter a)) (codeSetFilter a s.devAddr)

end Sys2Proof.Machine
end

