-- ==== Sys2Proof/Machine/Power.lean ====
section
/-! DEFINITION. BEGIN, END, IS_RUNNING (40_power.md). Each begins with one read of POWER_CTL and none validates
anything (R102). -/

namespace Sys2Proof.Machine

/-- The pseudocode of R103. -/
def codeBegin (d : DevAddr) : Code
  | 0, [] => .txn (.rdB d regPowerCtl)
  | 1, [p] => if standby p then .txn (.wrB d regPowerCtl (clearStandby p)) else .ret .unit
  | 2, [_] => .ret .unit
  | _, _ => .offPath

/-- BEGIN, R103. -/
def execBegin (s : State) : Host.Outcome State Fault Refusal :=
  s.command (encode .beginCmd) (codeBegin s.devAddr)

/-- The pseudocode of R104. -/
def codeEnd (d : DevAddr) : Code
  | 0, [] => .txn (.rdB d regPowerCtl)
  | 1, [p] => if running p then .txn (.wrB d regPowerCtl (setStandby p)) else .ret .unit
  | 2, [_] => .ret .unit
  | _, _ => .offPath

/-- END, R104. -/
def execEnd (s : State) : Host.Outcome State Fault Refusal :=
  s.command (encode .endCmd) (codeEnd s.devAddr)

/-- The pseudocode of R105. -/
def codeIsRunning (d : DevAddr) : Code
  | 0, [] => .txn (.rdB d regPowerCtl)
  | 1, [p] => .ret (.bool (running p))
  | _, _ => .offPath

/-- IS_RUNNING, R105. -/
def execIsRunning (s : State) : Host.Outcome State Fault Refusal :=
  s.command (encode .isRunning) (codeIsRunning s.devAddr)

end Sys2Proof.Machine
end

