-- ==== Sys2Proof/Machine/Range.lean ====
section
/-! DEFINITION. GET_RANGE, SET_RANGE (41_range.md). -/

namespace Sys2Proof.Machine

/-- The pseudocode of R124. -/
def codeGetRange (d : DevAddr) : Code
  | 0, [] => .txn (.rdB d regRange)
  | 1, [b] => .ret (.rangeCode (decodeRange b))
  | _, _ => .offPath

/-- GET_RANGE, R124. -/
def execGetRange (s : State) : Host.Outcome State Fault Refusal :=
  s.command (encode .getRange) (codeGetRange s.devAddr)

/-- The pseudocode of R125: the operand is checked before any transaction. -/
def codeSetRange (a : Byte) (d : DevAddr) : Code
  | 0, [] => if validRange a then .txn (.rdB d regRange) else .raise .invalidArgument
  | 1, [b] => .txn (.wrB d regRange (mergeRange b a))
  | 2, [_] => .ret .unit
  | _, _ => .offPath

/-- SET_RANGE a, R125. -/
def execSetRange (a : Byte) (s : State) : Host.Outcome State Fault Refusal :=
  s.command (encode (.setRange a)) (codeSetRange a s.devAddr)

end Sys2Proof.Machine
end

