-- ==== Sys2Proof/Machine/StatusTemperature.lean ====
section
/-! DEFINITION. GET_STATUS, GET_TEMPERATURE (43_status_temperature.md). -/

namespace Sys2Proof.Machine

/-- The pseudocode of R162. -/
def codeGetStatus (d : DevAddr) : Code
  | 0, [] => .txn (.rdB d regStatus)
  | 1, [b] => .ret (.bool (dataReady b))
  | _, _ => .offPath

/-- GET_STATUS, R162. -/
def execGetStatus (s : State) : Host.Outcome State Fault Refusal :=
  s.command (encode .getStatus) (codeGetStatus s.devAddr)

/-- The pseudocode of R163. -/
def codeGetTemperature (d : DevAddr) : Code
  | 0, [] => .txn (.rdBlk d regTemp 2)
  | 1, [b0, b1] => .ret (.f64 (tempCelsius (tempCode b0 b1)))
  | _, _ => .offPath

/-- GET_TEMPERATURE, R163. -/
def execGetTemperature (s : State) : Host.Outcome State Fault Refusal :=
  s.command (encode .getTemperature) (codeGetTemperature s.devAddr)

end Sys2Proof.Machine
end

