-- ==== Sys2Proof/Machine/Commands.lean ====
section
/-! DEFINITION. The pseudocode of every command in one table, for the invariants and the frames (Safety.lean). -/

namespace Sys2Proof.Machine

/-- The pseudocode of each command of R62 for the device address `d`. -/
def codeOf (i : Instr) (d : DevAddr) : Code :=
  match i with
  | .beginCmd => codeBegin d
  | .endCmd => codeEnd d
  | .isRunning => codeIsRunning d
  | .getRange => codeGetRange d
  | .setRange a => codeSetRange a d
  | .getFilter => codeGetFilter d
  | .setFilter a => codeSetFilter a d
  | .getStatus => codeGetStatus d
  | .getTemperature => codeGetTemperature d
  | .getAxes => codeGetAxes d
  | .getAxisX => codeGetAxisX d
  | .getAxisY => codeGetAxisY d
  | .getAxisZ => codeGetAxisZ d

/-- The number of transactions a command issues at most (R23, R62). -/
def maxTxns : Instr → Nat
  | .beginCmd => 2
  | .endCmd => 2
  | .isRunning => 1
  | .getRange => 1
  | .setRange _ => 2
  | .getFilter => 1
  | .setFilter _ => 2
  | .getStatus => 1
  | .getTemperature => 1
  | .getAxes => 1
  | .getAxisX => 1
  | .getAxisY => 1
  | .getAxisZ => 1

end Sys2Proof.Machine
end

