-- ==== Sys2Proof/Machine/Dispatch.lean ====
section
/-! DEFINITION. One step of each command: one arm per constructor of Instr. -/

namespace Sys2Proof.Machine

def exec (i : Instr) (s : State) : Host.Outcome State Fault Refusal :=
  match i with
  | .beginCmd => Sys2Proof.Machine.execBegin s
  | .endCmd => Sys2Proof.Machine.execEnd s
  | .isRunning => Sys2Proof.Machine.execIsRunning s
  | .getRange => Sys2Proof.Machine.execGetRange s
  | .setRange a => Sys2Proof.Machine.execSetRange a s
  | .getFilter => Sys2Proof.Machine.execGetFilter s
  | .setFilter a => Sys2Proof.Machine.execSetFilter a s
  | .getStatus => Sys2Proof.Machine.execGetStatus s
  | .getTemperature => Sys2Proof.Machine.execGetTemperature s
  | .getAxes => Sys2Proof.Machine.execGetAxes s
  | .getAxisX => Sys2Proof.Machine.execGetAxisX s
  | .getAxisY => Sys2Proof.Machine.execGetAxisY s
  | .getAxisZ => Sys2Proof.Machine.execGetAxisZ s

end Sys2Proof.Machine
end

