-- ==== Sys2Proof/Machine/Step.lean ====
section
/-! DEFINITION. One step of the machine: an acceptance of the host's next word when the codec is `Idle` (R36), the
next sequencer step of the command in progress when it is `Busy` (R38). The codec fetches no instructions (R54): the
place a word comes from is the host's list. -/

namespace Sys2Proof.Machine

/-- One step. An `Idle` codec to which the host presents nothing stays as it is (R208: it accepts the next command
from the host). -/
def step (s : State) : Host.Outcome State Fault Refusal :=
  match s.seq with
  | .idle =>
    match s.host with
    | [] => .next s
    | w :: ws =>
      match decode w with
      | .command i => exec i (s.withHost ws)
      | .illegal _ => .next ((s.withHost ws).rejectWord w)
  | .busy cmd _ _ =>
    match decode cmd with
    | .command i => exec i s
    | .illegal _ => .fault .busyWithNoCommand

/-- `s` with the table word presented next by the host, to an `Idle` codec (R36: the host may present a word only
then; log 4). -/
def State.withFetchWord (s : State) (nbits w : Nat) : State :=
  { s with seq := .idle, host := tableWord nbits w :: s.host }

end Sys2Proof.Machine
end

