-- ==== Sys2Proof/Machine/Assembler.lean ====
section
/-! DEFINITION. The assembler of one command line (R66, R67): no part of the machine, but of the spec's command
interface. What the spec leaves open of the line's spelling is in log 8. -/

namespace Sys2Proof.Machine

/-- Why the assembler refuses a line (R66). -/
inductive AsmError where
  /-- A mnemonic, or accessor name, not in R62. -/
  | unknownMnemonic
  /-- An operand on a command that takes none. -/
  | operandNotTaken
  /-- No operand on SET_RANGE or SET_FILTER. -/
  | operandMissing
  /-- An operand that is no decimal, hexadecimal or binary integer and no symbol of that command. -/
  | operandMalformed
  /-- An integer outside 0 to 255. -/
  | operandOutOfRange
  /-- A line of another shape. -/
  | lineMalformed
  deriving DecidableEq, Repr

/-- A line assembled to its word, or refused. -/
inductive Assembled where
  | word (w : CmdWord)
  | refused (e : AsmError)
  deriving DecidableEq, Repr

/-- The command a line's head names. -/
inductive AsmHead where
  | plain (i : Instr)
  | setRange
  | setFilter
  deriving DecidableEq, Repr

/-- The mnemonics of R62. -/
def asmMnemonics : List (String × AsmHead) :=
  [("BEGIN", .plain .beginCmd), ("END", .plain .endCmd), ("IS_RUNNING", .plain .isRunning),
   ("GET_RANGE", .plain .getRange), ("SET_RANGE", .setRange), ("GET_FILTER", .plain .getFilter),
   ("SET_FILTER", .setFilter), ("GET_STATUS", .plain .getStatus), ("GET_TEMPERATURE", .plain .getTemperature),
   ("GET_AXES", .plain .getAxes), ("GET_AXIS_X", .plain .getAxisX), ("GET_AXIS_Y", .plain .getAxisY),
   ("GET_AXIS_Z", .plain .getAxisZ)]

/-- The accessor names of R62, accepted as aliases in the form `name()` or `name(imm)` (R66). -/
def asmAccessors : List (String × AsmHead) :=
  [("begin", .plain .beginCmd), ("end", .plain .endCmd), ("isRunning", .plain .isRunning),
   ("getRange", .plain .getRange), ("setRange", .setRange), ("getLowpassFilter", .plain .getFilter),
   ("setLowpassFilter", .setFilter), ("getStatus", .plain .getStatus), ("getTemperature", .plain .getTemperature),
   ("getAxes", .plain .getAxes), ("getAxisX", .plain .getAxisX), ("getAxisY", .plain .getAxisY),
   ("getAxisZ", .plain .getAxisZ)]

/-- The symbolic operands of SET_RANGE, R67. -/
def asmRangeSymbols : List (String × Int) := [("2G", 1), ("4G", 2), ("8G", 3)]

/-- The symbolic operands of SET_FILTER, R67. -/
def asmFilterSymbols : List (String × Int) :=
  [("LPF_4000", 0), ("LPF_2000", 1), ("LPF_1000", 2), ("LPF_500", 3), ("LPF_250", 4), ("LPF_125", 5),
   ("LPF_62_5", 6), ("LPF_31_25", 7), ("LPF_15_625", 8), ("LPF_7_813", 9), ("LPF_3_906", 10)]

/-- The value of a digit character. -/
def asmDigit (c : Char) : Nat :=
  if c.toNat < 48 then 255
  else if c.toNat ≤ 57 then c.toNat - 48
  else if c.toNat < 65 then 255
  else if c.toNat ≤ 70 then c.toNat - 55
  else if c.toNat < 97 then 255
  else if c.toNat ≤ 102 then c.toNat - 87
  else 255

/-- Digits of a base after those read so far. -/
def asmDigitsFrom (base : Nat) : Nat → List Char → Option Nat
  | n, [] => some n
  | n, c :: cs => if asmDigit c < base then asmDigitsFrom base (n * base + asmDigit c) cs else none

/-- One or more digits of a base. -/
def asmDigits (base : Nat) (cs : List Char) : Option Nat :=
  if cs.isEmpty then none else asmDigitsFrom base 0 cs

/-- A decimal integer, a hexadecimal one with `0x`, or a binary one with `0b` (R66; `0b10` is 2). -/
def asmNat : List Char → Option Nat
  | '0' :: 'x' :: cs => asmDigits 16 cs
  | '0' :: 'b' :: cs => asmDigits 2 cs
  | cs => asmDigits 10 cs

/-- An integer, with an optional minus sign: a negative one is read so that it can be refused (R61). -/
def asmInt : List Char → Option Int
  | '-' :: cs => (asmNat cs).map fun n => -(n : Int)
  | cs => (asmNat cs).map fun n => (n : Int)

/-- The operand of a setter with the symbols `table`. -/
def asmOperand (table : List (String × Int)) (cs : List Char) : Option Int :=
  match table.lookup (String.ofList cs) with
  | some v => some v
  | none => asmInt cs

/-- A setter's call, encoded, or refused for its operand. -/
def asmSetter (table : List (String × Int)) (call : Int → HostCall) : Option (List Char) → Assembled
  | none => .refused .operandMissing
  | some cs =>
    match asmOperand table cs with
    | none => .refused .operandMalformed
    | some v =>
      match encodeCall (call v) with
      | some w => .word w
      | none => .refused .operandOutOfRange

/-- A head with its operand, if the line has one. -/
def asmCommand (head : Option AsmHead) (operand : Option (List Char)) : Assembled :=
  match head with
  | none => .refused .unknownMnemonic
  | some (.plain i) =>
    match operand with
    | none => .word (encode i)
    | some _ => .refused .operandNotTaken
  | some .setRange => asmSetter asmRangeSymbols .setRange operand
  | some .setFilter => asmSetter asmFilterSymbols .setLowpassFilter operand

/-- The tokens of a line after the characters `cur` of the token begun. -/
def asmTokensFrom : List Char → List Char → List (List Char)
  | cur, [] => if cur.isEmpty then [] else [cur]
  | cur, c :: cs =>
    if c = ' ' then (if cur.isEmpty then asmTokensFrom [] cs else cur :: asmTokensFrom [] cs)
    else asmTokensFrom (cur ++ [c]) cs

/-- The tokens of a line, split at spaces. -/
def asmTokens (cs : List Char) : List (List Char) := asmTokensFrom [] cs

/-- A token `name(inside)` as its two parts. -/
def asmCall (cs : List Char) : Option (List Char × List Char) :=
  match cs.dropWhile (· != '(') with
  | _ :: rest => if rest.getLast? = some ')' then some (cs.takeWhile (· != '('), rest.dropLast) else none
  | [] => none

/-- R66: `MNEMONIC`, `MNEMONIC imm`, or an accessor call. -/
def assembleLine (line : String) : Assembled :=
  match asmTokens line.toList with
  | [t] =>
    match asmCall t with
    | some (name, inside) =>
      asmCommand (asmAccessors.lookup (String.ofList name)) (if inside.isEmpty then none else some inside)
    | none => asmCommand (asmMnemonics.lookup (String.ofList t)) none
  | [t, imm] => asmCommand (asmMnemonics.lookup (String.ofList t)) (some imm)
  | _ => .refused .lineMalformed

end Sys2Proof.Machine
end

