-- ==== Sys2Proof/Safety.lean ====
section
/-! DEFINITION. What a good state and a good run are, and the shapes in which the claims are stated. -/

namespace Sys2Proof

/-! ## The environment's turns -/

/-- The turn leaves register `r` of device `d` alone: the premise that the caller serialises the bus (R232, R233). -/
def Turn.quiet (t : Turn) (d : DevAddr) (r : RegAddr) : Prop :=
  ∀ w ∈ t.acts, ¬ (w.dev = d ∧ w.reg = r)

/-- The turn serves the transaction and leaves register `r` of device `d` alone: no failure and no environment
write there (R106, R126, R146). -/
def Turn.clean (t : Turn) (d : DevAddr) (r : RegAddr) : Prop :=
  t.draw = .serve ∧ t.quiet d r

end Sys2Proof

namespace Sys2Proof.Machine

/-! ## Events -/

def Event.isCmd : Event → Bool
  | .cmd _ => true
  | .txn _ _ => false
  | .res _ => false

def Event.isTxn : Event → Bool
  | .cmd _ => false
  | .txn _ _ => true
  | .res _ => false

def Event.isRes : Event → Bool
  | .cmd _ => false
  | .txn _ _ => false
  | .res _ => true

/-- The event is a write on the bus, whatever it answered. -/
def Event.isWrite : Event → Bool
  | .txn (.wrB _ _ _) _ => true
  | _ => false

/-- The device address a transaction carries (R44). -/
def Txn.dev : Txn → DevAddr
  | .rdB d _ => d
  | .wrB d _ _ => d
  | .rdBlk d _ _ => d

/-- Reading one event of a history: whether a command is in progress after it, `none` where the event cannot stand
there. A presented word opens a command, transactions stand within one, and its one result closes it (R36, R200). -/
def Event.follow : Option Bool → Event → Option Bool
  | some false, .cmd _ => some true
  | some true, .txn _ _ => some true
  | some true, .res _ => some false
  | _, _ => none

/-- What a step added to the event history `before`. -/
def State.newEvents (after before : State) : List Event := after.trace.drop before.trace.length

/-- The transactions the codec issues at all, for the device address `d`: the widths and places of R41 and R43, the
access column of R25 to R30 (STATUS, TEMP and AXES are never written), R32. -/
def codecTxn (d : DevAddr) : Txn → Bool
  | .rdB d' r => d' == d && (r == 0x2D || r == 0x2C || r == 0x28 || r == 0x04)
  | .wrB d' r _ => d' == d && (r == 0x2D || r == 0x2C || r == 0x28)
  | .rdBlk d' r n => d' == d && ((r == 0x06 && n == 2) || (r == 0x08 && n == 9))

/-- The registers of the map of R41. -/
def codecReg (r : RegAddr) : Bool :=
  r == 0x04 || (0x06 ≤ r && r ≤ 0x10) || r == 0x28 || r == 0x2C || r == 0x2D

/-! ## The invariant -/

/-- The transactions of a command with pseudocode `code` so far: each the one its pseudocode stood before, each accepted,
`buf` their bytes in order (R22, R38). -/
inductive Answered (code : Code) : List Event → List Byte → Prop where
  | none : Answered code [] []
  | more (es : List Event) (buf : List Byte) (t : Txn) (a : Answer) (bs : List Byte) :
      Answered code es buf → code es.length buf = .txn t → acceptedBytes t a = some bs →
      Answered code (es ++ [.txn t a]) (buf ++ bs)

/-- The command `cmd` is in progress after `k` transactions that returned `buf` (R22, R36, R38): `cmd` decodes to a
command, whose pseudocode stands before a transaction, and the history since `Cmd(cmd)` is exactly those `k`
transactions. -/
def InProgress (s : State) (cmd : CmdWord) (k : Nat) (buf : List Byte) : Prop :=
  ∃ i t before es, decode cmd = .command i ∧ codeOf i s.devAddr k buf = .txn t ∧
    s.trace = before ++ .cmd cmd :: es ∧ es.length = k ∧ Answered (codeOf i s.devAddr) es buf

/-- The invariant of the machine. -/
structure Inv (s : State) : Prop where
  /-- The register space keeps its canonical form. -/
  memory : Memory.wf s.mem = true
  /-- Every transaction so far went to this instance's sensor, in a width and at a place of R43 (R20, R32). -/
  bus : ∀ t a, .txn t a ∈ s.trace → codecTxn s.devAddr t = true
  /-- A command in progress is at a point of its pseudocode (R22). -/
  sequencer : ∀ cmd k buf, s.seq = .busy cmd k buf → InProgress s cmd k buf
  /-- The history is one command after another, each the presented word, its transactions and exactly one result, but for
  the command in progress, which has no result yet (R51, R200). A word that decodes to no command stands in it as a command
  without transactions (log 7). -/
  results : s.trace.foldl Event.follow (some false) = some (decide (s.seq ≠ .idle))

/-- Two states that the codec cannot tell apart: the same but for registers outside this instance's part of the map of
R41 (R32, R40). -/
structure SameView (s s' : State) : Prop where
  devAddr : s.devAddr = s'.devAddr
  seq : s.seq = s'.seq
  trace : s.trace = s'.trace
  host : s.host = s'.host
  env : s.env = s'.env
  draws : s.draws = s'.draws
  registers : ∀ r, codecReg r = true → readReg s.mem s.devAddr r = readReg s'.mem s.devAddr r

/-! ## The frame -/

/-- The register the next sequencer step of command `i` stores to, if it stores: the one that the write standing next
in the command's pseudocode names. -/
def storeTarget (i : Instr) (s : State) : Option (DevAddr × RegAddr) :=
  match s.seq with
  | .idle => none
  | .busy _ k buf =>
    match codeOf i s.devAddr k buf with
    | .txn (.wrB d r _) => some (d, r)
    | _ => none

/-! ## Shapes of the command rules -/

/-- The state after a transaction: sequencer `q`, register space `m`, the environment's turn used up, the events `es`
recorded, and nothing else changed. -/
def State.afterTxn (s : State) (q : SeqState) (m : Memory) (es : List Event) : State :=
  { s with
    seq := q, mem := m, trace := s.trace ++ es, env := s.env.tail,
    draws := if s.env = [] then s.draws + 1 else s.draws }

/-- The environment's turn before the codec's transaction number `k` from here on, counted from 0: the listed one, or a
free one once the list is used up. -/
def State.turnAt (s : State) (k : Nat) : Turn := s.env.getD k (Config.envTurn (s.draws + (k - s.env.length)))

/-- An `Idle` codec accepts command `i`, whose word is `w`: `Busy` before its first transaction (R36). -/
def Accepts (i : Instr) (w : CmdWord) : Prop :=
  ∀ s : State, s.seq = .idle →
    exec i s = .next { s with seq := .busy w 0 [], trace := s.trace ++ [.cmd w] }

/-- An `Idle` codec ends command `i`, whose word is `w`, with `Err(InvalidArgument)` and no transaction (R36, R201). -/
def RejectsArgument (i : Instr) (w : CmdWord) : Prop :=
  ∀ s : State, s.seq = .idle →
    exec i s = .next { s with trace := s.trace ++ [.cmd w, .res (.err .invalidArgument)] }

/-- The first transaction of command `i` is one `readByte` of `reg`. Served, it finds the register as the environment's
steps left it; the sequencer then is `q` of the byte, and the events `es` of the byte follow. Failed, it ends the
command with `Err(TransportError)`, with no write. -/
def ReadsByte (i : Instr) (reg : RegAddr) (q : CmdWord → Byte → SeqState) (es : Byte → List Event) : Prop :=
  ∀ (s : State) (w : CmdWord) (acts : List RegWrite), s.seq = .busy w 0 [] →
    let m := applyActs acts s.mem
    let b := readReg m s.devAddr reg
    (s.nextTurn = ⟨acts, .serve⟩ →
      exec i s = .next (s.afterTxn (q w b) m (.txn (.rdB s.devAddr reg) (.byte b) :: es b))) ∧
    ∀ left, s.nextTurn = ⟨acts, .fail left⟩ →
      exec i s = .next
        (s.afterTxn .idle m [.txn (.rdB s.devAddr reg) .fail, .res (.err .transportError)])

/-- The second transaction of command `i`, after it read the byte `p`, is one `writeByte` of `v` to `reg`. Served, it
ends the command with `Ok(())`. Failed, it ends it with `Err(TransportError)`, the register then holding any byte
`left` (R56). -/
def WritesByte (i : Instr) (p : Byte) (reg : RegAddr) (v : Byte) : Prop :=
  ∀ (s : State) (w : CmdWord) (acts : List RegWrite), s.seq = .busy w 1 [p] →
    let m := applyActs acts s.mem
    (s.nextTurn = ⟨acts, .serve⟩ →
      exec i s = .next (s.afterTxn .idle (writeReg m s.devAddr reg v)
        [.txn (.wrB s.devAddr reg v) .done, .res (.ok .unit)])) ∧
    ∀ left, s.nextTurn = ⟨acts, .fail left⟩ →
      exec i s = .next (s.afterTxn .idle (writeReg m s.devAddr reg left)
        [.txn (.wrB s.devAddr reg v) .fail, .res (.err .transportError)])

/-- The only transaction of command `i` is one `readBlock` of the registers `regs`, the first of which is `start`.
Served, it ends the command with `Ok` of `value`, a function of the registers as they stood at that instant (R45).
Failed, or answered with another number of bytes (R57), it ends it with `Err(TransportError)`. -/
def ReadsBlock (i : Instr) (start : RegAddr) (regs : List RegAddr) (value : (RegAddr → Byte) → Value) : Prop :=
  ∀ (s : State) (w : CmdWord) (acts : List RegWrite), s.seq = .busy w 0 [] →
    let m := applyActs acts s.mem
    let t := Txn.rdBlk s.devAddr start regs.length
    (s.nextTurn = ⟨acts, .serve⟩ →
      exec i s = .next (s.afterTxn .idle m
        [.txn t (.bytes (regs.map (readReg m s.devAddr))), .res (.ok (value (readReg m s.devAddr)))])) ∧
    (∀ left, s.nextTurn = ⟨acts, .fail left⟩ →
      exec i s = .next (s.afterTxn .idle m [.txn t .fail, .res (.err .transportError)])) ∧
    ∀ bs, bs.length ≠ regs.length → s.nextTurn = ⟨acts, .badLength bs⟩ →
      exec i s = .next (s.afterTxn .idle m [.txn t (.bytes bs), .res (.err .transportError)])

/-- The signed 20-bit sample of a 24-bit group, most significant byte first: bits 23:4 read as two's complement
(R68, `sext_20` of R9). -/
def axisSample (b3 b2 b1 : Byte) : Int := ((b3 ++ b2 ++ b1).extractLsb' 4 20).toInt

end Sys2Proof.Machine
end

