-- ==== Sys2Proof/Certificates/Slice0/Obligations.lean ====
section
/-! DEFINITION. The statements for the provers. Each docstring names the rules it formalises. -/

open Sys2Proof Sys2Proof.Machine

/-! ## Encoding -/

/-- R60, R62, R63: every command decodes from its own word, and every word that decodes to a command is that command's
word, so no bit of a command word is dropped or free. -/
def Obligations.DecodeAndEncodeAgree : Prop :=
  (∀ i : Instr, decode (encode i) = .command i) ∧ ∀ (w : CmdWord) (i : Instr), decode w = .command i → encode i = w

/-- R63, row by row, with its count. -/
def Obligations.DecodeFollowsTheOpcodeMap : Prop :=
  (∀ (op : Byte) (i : Instr),
    (op, i) ∈ [((0x01 : Byte), Instr.beginCmd), (0x02, .endCmd), (0x03, .isRunning), (0x10, .getRange),
      (0x20, .getFilter), (0x30, .getStatus), (0x31, .getTemperature), (0x40, .getAxes), (0x41, .getAxisX),
      (0x42, .getAxisY), (0x43, .getAxisZ)] →
    decode (op ++ (0x00 : Byte)) = .command i ∧
      ∀ arg : Byte, arg ≠ 0x00 → (decode (op ++ arg)).isCommand = false) ∧
  (∀ arg : Byte, decode ((0x11 : Byte) ++ arg) = .command (.setRange arg)) ∧
  (∀ arg : Byte, decode ((0x21 : Byte) ++ arg) = .command (.setFilter arg)) ∧
  (∀ op arg : Byte,
    op ∉ ([0x01, 0x02, 0x03, 0x10, 0x11, 0x20, 0x21, 0x30, 0x31, 0x40, 0x41, 0x42, 0x43] : List Byte) →
    (decode (op ++ arg)).isCommand = false) ∧
  ∃ words : List CmdWord, words.Nodup ∧ words.length = 523 ∧ ∀ w : CmdWord, w ∈ words ↔ (decode w).isCommand = true

/-- The decode vectors L2-D of 95_test_vectors.md, words written out bit by bit where they are commands. -/
def Obligations.DecodeKnownWords : Prop :=
  decode 0b0000000100000000 = .command .beginCmd ∧ decode 0b0000001000000000 = .command .endCmd ∧
  decode 0b0000001100000000 = .command .isRunning ∧ decode 0b0001000000000000 = .command .getRange ∧
  decode 0b0001000111111111 = .command (.setRange 255) ∧ decode 0b0010000000000000 = .command .getFilter ∧
  decode 0b0010000100000101 = .command (.setFilter 5) ∧ decode 0b0011000000000000 = .command .getStatus ∧
  decode 0b0011000100000000 = .command .getTemperature ∧ decode 0b0100000000000000 = .command .getAxes ∧
  decode 0b0100000100000000 = .command .getAxisX ∧ decode 0b0100001000000000 = .command .getAxisY ∧
  decode 0b0100001100000000 = .command .getAxisZ ∧
  ([0x0101, 0x10FF, 0x0000, 0x0400, 0x1200, 0x4400, 0xFF00, 0xFFFF] : List CmdWord).all
    (fun w => !(decode w).isCommand) = true

/-- R61: the operand is the ARG byte, read as 0 to 255 and passed on unchanged; a host value outside 0 to 255 is refused
before any command exists; no other command has an operand. -/
def Obligations.OperandIsTheArgByte : Prop :=
  (∀ v : Int, 0 ≤ v → v ≤ 255 → ∃ a : Byte, (a.toNat : Int) = v ∧
    encodeCall (.setRange v) = some ((0x11 : Byte) ++ a) ∧ decode ((0x11 : Byte) ++ a) = .command (.setRange a) ∧
    encodeCall (.setLowpassFilter v) = some ((0x21 : Byte) ++ a) ∧
    decode ((0x21 : Byte) ++ a) = .command (.setFilter a)) ∧
  (∀ v : Int, v < 0 ∨ 255 < v → encodeCall (.setRange v) = none ∧ encodeCall (.setLowpassFilter v) = none) ∧
  ∀ (w w' : CmdWord) (i : Instr), decode w = .command i → i.takesOperand = false →
    (decode w').isCommand = true → w.extractLsb' 8 8 = w'.extractLsb' 8 8 → w = w'

/-- R67: the symbolic operands, each after a mnemonic, as R66 shows, and in an accessor call. That an accessor call takes a
symbolic operand is the model's choice (log 8). -/
def Obligations.SymbolicOperandsAssemble : Prop :=
  ∀ p ∈ ([
      ("SET_RANGE 2G", 0x1101), ("SET_RANGE 4G", 0x1102), ("SET_RANGE 8G", 0x1103), ("setRange(2G)", 0x1101),
      ("setRange(4G)", 0x1102), ("setRange(8G)", 0x1103), ("SET_FILTER LPF_4000", 0x2100),
      ("SET_FILTER LPF_2000", 0x2101), ("SET_FILTER LPF_1000", 0x2102), ("SET_FILTER LPF_500", 0x2103),
      ("SET_FILTER LPF_250", 0x2104), ("SET_FILTER LPF_125", 0x2105), ("SET_FILTER LPF_62_5", 0x2106),
      ("SET_FILTER LPF_31_25", 0x2107), ("SET_FILTER LPF_15_625", 0x2108), ("SET_FILTER LPF_7_813", 0x2109),
      ("SET_FILTER LPF_3_906", 0x210A), ("setLowpassFilter(LPF_4000)", 0x2100),
      ("setLowpassFilter(LPF_2000)", 0x2101), ("setLowpassFilter(LPF_1000)", 0x2102),
      ("setLowpassFilter(LPF_500)", 0x2103), ("setLowpassFilter(LPF_250)", 0x2104),
      ("setLowpassFilter(LPF_125)", 0x2105), ("setLowpassFilter(LPF_62_5)", 0x2106),
      ("setLowpassFilter(LPF_31_25)", 0x2107), ("setLowpassFilter(LPF_15_625)", 0x2108),
      ("setLowpassFilter(LPF_7_813)", 0x2109), ("setLowpassFilter(LPF_3_906)", 0x210A)] : List (String × CmdWord)),
    assembleLine p.1 = .word p.2

/-- R66 with R63: whatever line the assembler accepts, the word it gives decodes to a command. -/
def Obligations.AssembledWordsAreCommands : Prop :=
  ∀ (line : String) (w : CmdWord), assembleLine line = .word w → ∃ i, decode w = .command i

/-! ## Accepting a command, and the step -/

/-- A step runs the decoded command: the host's next word when the codec is `Idle`, the word of the command in progress
when it is `Busy`. An `Idle` codec with no word presented stays as it is (this last clause is the model's choice, log 3). -/
def Obligations.StepRunsTheDecodedCommand : Prop :=
  (∀ (s : State) (w : CmdWord) (ws : List CmdWord) (i : Instr), s.seq = .idle → s.host = w :: ws →
    decode w = .command i → step s = exec i { s with host := ws }) ∧
  (∀ (s : State) (cmd : CmdWord) (k : Nat) (buf : List Byte) (i : Instr), s.seq = .busy cmd k buf →
    decode cmd = .command i → step s = exec i s) ∧
  (∀ (s : State) (n w : Nat) (i : Instr), decodeTableWord n w = some i →
    step (s.withFetchWord n w) = exec i { s with seq := .idle }) ∧
  ∀ s : State, s.seq = .idle → s.host = [] → step s = .next s

/-- R36: what the acceptance of a presented word does, in each of its cases, and that no word is taken while a command is
in progress. That the acceptance of a word that decodes to no command is recorded is the model's choice (log 7). -/
def Obligations.AcceptingACommand : Prop :=
  (∀ (s : State) (w : CmdWord) (ws : List CmdWord), s.seq = .idle → s.host = w :: ws →
    ((decode w).isCommand = false → step s = .next
      { s with host := ws, trace := s.trace ++ [.cmd w, .res (.err .illegalCommand)] }) ∧
    (∀ a : Byte, decode w = .command (.setRange a) → a ∉ ([1, 2, 3] : List Byte) → step s = .next
      { s with host := ws, trace := s.trace ++ [.cmd w, .res (.err .invalidArgument)] }) ∧
    (∀ a : Byte, decode w = .command (.setFilter a) → 10 < a.toNat → step s = .next
      { s with host := ws, trace := s.trace ++ [.cmd w, .res (.err .invalidArgument)] }) ∧
    (∀ i : Instr, decode w = .command i → (∀ a, i = .setRange a → a ∈ ([1, 2, 3] : List Byte)) →
      (∀ a, i = .setFilter a → a.toNat ≤ 10) → step s = .next
      { s with host := ws, seq := .busy w 0 [], trace := s.trace ++ [.cmd w] })) ∧
  ∀ (s t : State) (cmd : CmdWord) (k : Nat) (buf : List Byte), s.seq = .busy cmd k buf → step s = .next t →
    t.host = s.host

/-- R204: a presented word that decodes to `Illegal` ends at once with IllegalCommand, code 3, no transaction, the
sequencer still `Idle`; and nothing else raises it. That the acceptance of such a word is recorded is the model's choice
(log 7). -/
def Obligations.IllegalWordGivesIllegalCommand : Prop :=
  ErrKind.illegalCommand.code = 3 ∧
  (∀ (s : State) (w : CmdWord) (ws : List CmdWord), s.seq = .idle → s.host = w :: ws → (decode w).isCommand = false →
    step s = .next { s with host := ws, trace := s.trace ++ [.cmd w, .res (.err .illegalCommand)] }) ∧
  ∀ (s t : State), step s = .next t → .res (.err .illegalCommand) ∈ t.newEvents s →
    s.seq = .idle ∧ ∃ w ws, s.host = w :: ws ∧ (decode w).isCommand = false

/-! ## Power control -/

/-- R103. BEGIN reads POWER_CTL; with bit 0 already clear it ends with `Ok(())` after the read, otherwise it writes the byte
back with bit 0 cleared and bits 7:1 as read. -/
def Obligations.BeginStartsMeasurement : Prop :=
  Accepts .beginCmd 0x0100 ∧
  ReadsByte .beginCmd 0x2D (fun w p => if p.getLsbD 0 then .busy w 1 [p] else .idle)
    (fun p => if p.getLsbD 0 then [] else [.res (.ok .unit)]) ∧
  ∀ p : Byte, p.getLsbD 0 = true → WritesByte .beginCmd p 0x2D (p &&& 0xFE)

/-- R104. END reads POWER_CTL; with bit 0 already set it ends with `Ok(())` after the read, otherwise it writes the byte back
with bit 0 set and bits 7:1 as read. -/
def Obligations.EndStopsMeasurement : Prop :=
  Accepts .endCmd 0x0200 ∧
  ReadsByte .endCmd 0x2D (fun w p => if p.getLsbD 0 then .idle else .busy w 1 [p])
    (fun p => if p.getLsbD 0 then [.res (.ok .unit)] else []) ∧
  ∀ p : Byte, p.getLsbD 0 = false → WritesByte .endCmd p 0x2D (p ||| 0x01)

/-- R105. IS_RUNNING reads POWER_CTL and returns whether bit 0 is clear, with no write. -/
def Obligations.IsRunningReportsThePowerState : Prop :=
  Accepts .isRunning 0x0300 ∧
  ReadsByte .isRunning 0x2D (fun _ _ => .idle) (fun p => [.res (.ok (.bool (decide (p.getLsbD 0 = false))))])

/-- R100, R101: the STANDBY bit decoded and merged, bits 7:1 of POWER_CTL kept. -/
def Obligations.StandbyFieldCodec : Prop :=
  (∀ p : Byte, (standby p = true ↔ p.getLsbD 0 = true) ∧ (running p = true ↔ p.getLsbD 0 = false)) ∧
  ∀ p : Byte, clearStandby p = p &&& 0xFE ∧ setStandby p = p ||| 0x01 ∧ running (clearStandby p) = true ∧
    standby (setStandby p) = true ∧
    ∀ j, 1 ≤ j → (clearStandby p).getLsbD j = p.getLsbD j ∧ (setStandby p).getLsbD j = p.getLsbD j

/-- R106: BEGIN twice, or END twice, with no environment write to POWER_CTL and no failure, issues at most one write in all;
the second issues only its read, which returns the target bit. -/
def Obligations.SecondBeginOrEndWritesNothing : Prop :=
  ∀ (s : State) (ws : List CmdWord), s.seq = .idle → (∀ k < 3, (s.turnAt k).clean s.devAddr 0x2D) →
    ∀ (w : CmdWord) (target : Bool), (w = 0x0100 ∧ target = false) ∨ (w = 0x0200 ∧ target = true) →
    s.host = w :: w :: ws →
    ∃ (n : Nat) (t : State) (first : List Event) (q : Byte), core.run n s = .next t ∧ t.seq = .idle ∧ t.host = ws ∧
      t.trace = s.trace ++ first ++ [.cmd w, .txn (.rdB s.devAddr 0x2D) (.byte q), .res (.ok .unit)] ∧
      first.countP Event.isCmd = 1 ∧ first.countP Event.isRes = 1 ∧
      first.countP Event.isWrite ≤ 1 ∧ q.getLsbD 0 = target

/-- R107: after BEGIN succeeds POWER_CTL is the byte it read with bit 0 cleared, after END with bit 0 set, and IS_RUNNING,
issued next without interference, returns true after BEGIN and false after END. -/
def Obligations.PowerCommandsSetTheState : Prop :=
  ∀ (s : State) (ws : List CmdWord), s.seq = .idle → (∀ k < 3, (s.turnAt k).clean s.devAddr 0x2D) →
    let p0 := readReg s.mem s.devAddr 0x2D
    (s.host = 0x0100 :: 0x0300 :: ws → ∃ n t u, core.run n s = .next t ∧ t.seq = .idle ∧
      t.trace.getLast? = some (.res (.ok .unit)) ∧ t.host = 0x0300 :: ws ∧
      readReg t.mem s.devAddr 0x2D = p0 &&& 0xFE ∧
      core.run 2 t = .next u ∧ u.seq = .idle ∧ u.trace.getLast? = some (.res (.ok (.bool true)))) ∧
    (s.host = 0x0200 :: 0x0300 :: ws → ∃ n t u, core.run n s = .next t ∧ t.seq = .idle ∧
      t.trace.getLast? = some (.res (.ok .unit)) ∧ t.host = 0x0300 :: ws ∧
      readReg t.mem s.devAddr 0x2D = p0 ||| 0x01 ∧
      core.run 2 t = .next u ∧ u.seq = .idle ∧ u.trace.getLast? = some (.res (.ok (.bool false))))

/-! ## Range and filter -/

/-- R124. GET_RANGE reads RANGE and returns its low 2 bits; code 0 is `Ok(0)`. -/
def Obligations.GetRangeReturnsTheCode : Prop :=
  Accepts .getRange 0x1000 ∧
  ReadsByte .getRange 0x2C (fun _ _ => .idle) (fun b => [.res (.ok (.rangeCode (b.extractLsb' 0 2)))])

/-- R125. SET_RANGE rejects every operand but 1, 2 and 3 before any transaction; with one of these it reads RANGE and
writes it back with the low 2 bits replaced, also when they already hold the operand. -/
def Obligations.SetRangeReplacesTheCode : Prop :=
  (∀ a : Byte, a ∉ ([1, 2, 3] : List Byte) → RejectsArgument (.setRange a) ((0x11 : Byte) ++ a)) ∧
  ∀ a ∈ ([1, 2, 3] : List Byte), Accepts (.setRange a) ((0x11 : Byte) ++ a) ∧
    ReadsByte (.setRange a) 0x2C (fun w b => .busy w 1 [b]) (fun _ => []) ∧
    ∀ b : Byte, WritesByte (.setRange a) b 0x2C ((b &&& 0xFC) ||| a)

/-- R144. GET_FILTER reads FILTER and returns its low 4 bits; codes 11 to 15 come back unchanged. -/
def Obligations.GetFilterReturnsTheCode : Prop :=
  Accepts .getFilter 0x2000 ∧
  ReadsByte .getFilter 0x28 (fun _ _ => .idle) (fun b => [.res (.ok (.filterCode (b.extractLsb' 0 4)))])

/-- R145. SET_FILTER rejects every operand above 10 before any transaction; with another it reads FILTER and writes it
back with the low 4 bits replaced, also when they already hold the operand. -/
def Obligations.SetFilterReplacesTheCode : Prop :=
  (∀ a : Byte, 10 < a.toNat → RejectsArgument (.setFilter a) ((0x21 : Byte) ++ a)) ∧
  ∀ a : Byte, a.toNat ≤ 10 → Accepts (.setFilter a) ((0x21 : Byte) ++ a) ∧
    ReadsByte (.setFilter a) 0x28 (fun w b => .busy w 1 [b]) (fun _ => []) ∧
    ∀ b : Byte, WritesByte (.setFilter a) b 0x28 ((b &&& 0xF0) ||| a)

/-- R121, R122, R123: the RANGE field merged, decoded and validated. -/
def Obligations.RangeFieldCodec : Prop :=
  (∀ a : Byte, validRange a = true ↔ 1 ≤ a.toNat ∧ a.toNat ≤ 3) ∧
  (∀ b : Byte, (decodeRange b).toNat = b.toNat % 4) ∧
  ∀ b c : Byte, 1 ≤ c.toNat → c.toNat ≤ 3 → mergeRange b c = (b &&& 0xFC) ||| c ∧
    (mergeRange b c).toNat = b.toNat / 4 * 4 + c.toNat

/-- R141, R142, R143: the LPF field merged, decoded and validated. -/
def Obligations.FilterFieldCodec : Prop :=
  (∀ a : Byte, validFilter a = true ↔ a.toNat ≤ 10) ∧
  (∀ b : Byte, (decodeFilter b).toNat = b.toNat % 16) ∧
  ∀ b c : Byte, c.toNat ≤ 10 → mergeFilter b c = (b &&& 0xF0) ||| c ∧
    (mergeFilter b c).toNat = b.toNat / 16 * 16 + c.toNat

/-- R126: SET_RANGE then GET_RANGE, with no environment write to RANGE and no failure, returns the code set and keeps bits
7:2; an invalid code is rejected with no transaction. -/
def Obligations.RangeRoundTrip : Prop :=
  (∀ (s : State) (ws : List CmdWord) (a : Byte), s.seq = .idle → a ∈ ([1, 2, 3] : List Byte) →
    (∀ k < 3, (s.turnAt k).clean s.devAddr 0x2C) → s.host = ((0x11 : Byte) ++ a) :: 0x1000 :: ws →
    ∃ t, core.run 5 s = .next t ∧ t.seq = .idle ∧ t.host = ws ∧
      t.trace.getLast? = some (.res (.ok (.rangeCode (a.extractLsb' 0 2)))) ∧
      readReg t.mem s.devAddr 0x2C &&& 0xFC = readReg s.mem s.devAddr 0x2C &&& 0xFC) ∧
  ∀ (s : State) (ws : List CmdWord) (a : Byte), s.seq = .idle → a ∉ ([1, 2, 3] : List Byte) →
    s.host = ((0x11 : Byte) ++ a) :: ws → step s = .next
      { s with host := ws, trace := s.trace ++ [.cmd ((0x11 : Byte) ++ a), .res (.err .invalidArgument)] }

/-- R146: the same for the filter. -/
def Obligations.FilterRoundTrip : Prop :=
  (∀ (s : State) (ws : List CmdWord) (a : Byte), s.seq = .idle → a.toNat ≤ 10 →
    (∀ k < 3, (s.turnAt k).clean s.devAddr 0x28) → s.host = ((0x21 : Byte) ++ a) :: 0x2000 :: ws →
    ∃ t, core.run 5 s = .next t ∧ t.seq = .idle ∧ t.host = ws ∧
      t.trace.getLast? = some (.res (.ok (.filterCode (a.extractLsb' 0 4)))) ∧
      readReg t.mem s.devAddr 0x28 &&& 0xF0 = readReg s.mem s.devAddr 0x28 &&& 0xF0) ∧
  ∀ (s : State) (ws : List CmdWord) (a : Byte), s.seq = .idle → 10 < a.toNat →
    s.host = ((0x21 : Byte) ++ a) :: ws → step s = .next
      { s with host := ws, trace := s.trace ++ [.cmd ((0x21 : Byte) ++ a), .res (.err .invalidArgument)] }

/-- R147: the label table, with the strings of R140. -/
def Obligations.FilterLabelTable : Prop :=
  (∀ c : BitVec 4, c.toNat ≤ 10 → filterLabel c = ["4000", "2000", "1000", "500", "250", "125", "62.5", "31.25",
    "15.625", "7.813", "3.906"][c.toNat]?) ∧
  ∀ c : BitVec 4, 11 ≤ c.toNat → filterLabel c = none

/-! ## Status, temperature, axes -/

/-- R162. GET_STATUS reads STATUS and returns bit 0. -/
def Obligations.GetStatusReportsDataReady : Prop :=
  Accepts .getStatus 0x3000 ∧
  ReadsByte .getStatus 0x04 (fun _ _ => .idle) (fun b => [.res (.ok (.bool (b.getLsbD 0)))])

/-- R163. GET_TEMPERATURE reads the 2 TEMP bytes in one block and converts the big-endian code by the formula of R161. -/
def Obligations.GetTemperatureConvertsTheCode : Prop :=
  Accepts .getTemperature 0x3100 ∧
  ReadsBlock .getTemperature 0x06 [0x06, 0x07] fun r =>
    .f64 (fadd (fdiv (f64 (1852 - (((r 0x06).toNat * 256 + (r 0x07).toNat : Nat) : Int)) 1) (f64 905 100)) (f64 1921 100))

/-- R183. GET_AXES reads the 9 AXES bytes in one block and returns the three samples of that instant. -/
def Obligations.GetAxesReturnsTheTriple : Prop :=
  Accepts .getAxes 0x4000 ∧
  ReadsBlock .getAxes 0x08 [0x08, 0x09, 0x0A, 0x0B, 0x0C, 0x0D, 0x0E, 0x0F, 0x10] fun r =>
    .axes (axisSample (r 0x08) (r 0x09) (r 0x0A)) (axisSample (r 0x0B) (r 0x0C) (r 0x0D))
      (axisSample (r 0x0E) (r 0x0F) (r 0x10))

/-- R184, R185, R186. GET_AXIS_X, GET_AXIS_Y and GET_AXIS_Z each issue the full 9-byte read and return one lane of it. -/
def Obligations.GetAxisReturnsOneLane : Prop :=
  (Accepts .getAxisX 0x4100 ∧
    ReadsBlock .getAxisX 0x08 [0x08, 0x09, 0x0A, 0x0B, 0x0C, 0x0D, 0x0E, 0x0F, 0x10] fun r =>
      .int20 (axisSample (r 0x08) (r 0x09) (r 0x0A))) ∧
  (Accepts .getAxisY 0x4200 ∧
    ReadsBlock .getAxisY 0x08 [0x08, 0x09, 0x0A, 0x0B, 0x0C, 0x0D, 0x0E, 0x0F, 0x10] fun r =>
      .int20 (axisSample (r 0x0B) (r 0x0C) (r 0x0D))) ∧
  (Accepts .getAxisZ 0x4300 ∧
    ReadsBlock .getAxisZ 0x08 [0x08, 0x09, 0x0A, 0x0B, 0x0C, 0x0D, 0x0E, 0x0F, 0x10] fun r =>
      .int20 (axisSample (r 0x0E) (r 0x0F) (r 0x10)))

/-- R180: the decoder is the sign extension of bits 23:4, its low 4 bits never matter, its results are exactly
[-524288, 524287]. -/
def Obligations.AxisDecodeIsSignExtension : Prop :=
  (∀ b3 b2 b1 : Byte, decodeAxis b3 b2 b1 = axisSample b3 b2 b1 ∧
    -524288 ≤ decodeAxis b3 b2 b1 ∧ decodeAxis b3 b2 b1 ≤ 524287) ∧
  (∀ b3 b2 b1 b1' : Byte, b1.extractLsb' 4 4 = b1'.extractLsb' 4 4 → decodeAxis b3 b2 b1 = decodeAxis b3 b2 b1') ∧
  ∀ v : Int, -524288 ≤ v → v ≤ 524287 → ∃ b3 b2 b1 : Byte, decodeAxis b3 b2 b1 = v

/-- R182: the decoder's exact value on the 24-bit group, and where its extremes, 0 and -1 are reached. -/
def Obligations.AxisDecodeExtremes : Prop :=
  ∀ b3 b2 b1 : Byte,
    let g := b3.toNat * 65536 + b2.toNat * 256 + b1.toNat
    let v := decodeAxis b3 b2 b1
    v * 16 + ((g % 16 : Nat) : Int) = (if g < 0x800000 then (g : Int) else (g : Int) - 0x1000000) ∧
    (v = 0 ↔ g < 0x10) ∧ (v = 524287 ↔ 0x7FFFF0 ≤ g ∧ g ≤ 0x7FFFFF) ∧
    (v = -524288 ↔ 0x800000 ≤ g ∧ g ≤ 0x80000F) ∧ (v = -1 ↔ 0xFFFFF0 ≤ g ∧ g ≤ 0xFFFFFF)

/-- R187, the coherence vector of L2-A: there is a run, from an empty history and with every transaction served, in which
GET_AXIS_X, GET_AXIS_Y and GET_AXIS_Z, one after another, each issue the full 9-byte read and return 0, 1 and 1, while the
sensor held first the sample (0, 0, 0) and then the sample (1, 1, 1), so the three results come from no one conversion. -/
def Obligations.SingleAxisReadsMayMixSamples : Prop :=
  ∃ s t : State, s.seq = .idle ∧ s.host = [0x4100, 0x4200, 0x4300] ∧ s.trace = [] ∧ s.env.length = 3 ∧
    (∀ r : RegAddr, 0x08 ≤ r → r ≤ 0x10 → readReg s.mem s.devAddr r = 0x00) ∧
    (∀ turn ∈ s.env, turn.draw = .serve ∧ (turn.acts = [] ∨
      turn.acts = [⟨s.devAddr, 0x0A, 0x10⟩, ⟨s.devAddr, 0x0D, 0x10⟩, ⟨s.devAddr, 0x10, 0x10⟩])) ∧
    core.run 6 s = .next t ∧ t.seq = .idle ∧ t.host = [] ∧
    let read (bs : List Byte) := Event.txn (.rdBlk s.devAddr 0x08 9) (.bytes bs)
    let ones : List Byte := [0x00, 0x00, 0x10, 0x00, 0x00, 0x10, 0x00, 0x00, 0x10]
    t.trace =
      [.cmd 0x4100, read (List.replicate 9 0x00), .res (.ok (.int20 0)),
       .cmd 0x4200, read ones, .res (.ok (.int20 1)), .cmd 0x4300, read ones, .res (.ok (.int20 1))]

/-- R164: the fixed point of the formula, with the intermediate values its reason names, and the value at T = 0. -/
def Obligations.TemperatureFixedPoint : Prop :=
  f64 0 1 = 0x0000000000000000 ∧ f64 905 100 = 0x402219999999999A ∧ f64 1921 100 = 0x403335C28F5C28F6 ∧
  fdiv 0x0000000000000000 0x402219999999999A = 0x0000000000000000 ∧
  fadd 0x0000000000000000 0x403335C28F5C28F6 = 0x403335C28F5C28F6 ∧
  tempCelsius 1852 = 0x403335C28F5C28F6 ∧ tempCelsius 0 = 0x406BFB3A710938BE

/-- R69 and the first remark of R161: the raw code is unsigned and big-endian, and `f64(1852 - T)` is exact. -/
def Obligations.TemperatureCodeIsExact : Prop :=
  (∀ b0 b1 : Byte, (tempCode b0 b1).toNat = b0.toNat * 256 + b1.toNat) ∧
  ∀ t : BitVec 16, f64IsFinite (f64 (1852 - (t.toNat : Int)) 1) = true ∧
    f64Units (f64 (1852 - (t.toNat : Int)) 1) = (1852 - (t.toNat : Int)) * 2 ^ 1074

/-- The last remark of R161: the converted temperatures of neighbouring codes are finite and fall by about 0.1105 degrees
(here: by more than 0.1104 and less than 0.1106), so the conversion is strictly decreasing. -/
def Obligations.TemperatureStrictlyDecreases : Prop :=
  (∀ t : BitVec 16, f64IsFinite (tempCelsius t) = true) ∧
  ∀ t : BitVec 16, t.toNat < 65535 →
    1104 * (2 : Int) ^ 1074 < 10000 * (f64Units (tempCelsius t) - f64Units (tempCelsius (t + 1))) ∧
    10000 * (f64Units (tempCelsius t) - f64Units (tempCelsius (t + 1))) < 1106 * (2 : Int) ^ 1074

/-- R12, first primitive: where `f64(n / d)` is finite, no finite binary64 value is nearer to `n / d`, and if another is
as near, the last bit of `f64(n / d)` is 0 (a tie goes to even). -/
def Obligations.F64IsNearestEven : Prop :=
  ∀ (n : Int) (d : Nat), 0 < d → f64IsFinite (f64 n d) = true → ∀ y : F64, f64IsFinite y = true →
    (f64Units (f64 n d) * d - n * 2 ^ 1074).natAbs ≤ (f64Units y * d - n * 2 ^ 1074).natAbs ∧
    ((f64Units (f64 n d) * d - n * 2 ^ 1074).natAbs = (f64Units y * d - n * 2 ^ 1074).natAbs →
      f64Units y ≠ f64Units (f64 n d) → (f64 n d).getLsbD 0 = false)

/-! ## Errors -/

/-- R201: InvalidArgument, code 1, is raised by SET_RANGE on every operand but 1, 2, 3 and by SET_FILTER on every operand
above 10, before any transaction; by no other command; and a step that raises it has touched no register. -/
def Obligations.InvalidArgumentOnlyFromSetters : Prop :=
  ErrKind.invalidArgument.code = 1 ∧
  (∀ a : Byte, a ∉ ([1, 2, 3] : List Byte) → RejectsArgument (.setRange a) ((0x11 : Byte) ++ a)) ∧
  (∀ a : Byte, 10 < a.toNat → RejectsArgument (.setFilter a) ((0x21 : Byte) ++ a)) ∧
  ∀ (i : Instr) (s t : State), exec i s = .next t → .res (.err .invalidArgument) ∈ t.newEvents s →
    t.mem = s.mem ∧ (t.newEvents s).countP Event.isTxn = 0 ∧
    ((∃ a : Byte, i = .setRange a ∧ a ∉ ([1, 2, 3] : List Byte)) ∨ ∃ a : Byte, i = .setFilter a ∧ 10 < a.toNat)

/-- R202: whichever command stands before whichever transaction, an answer `Fail`, or a block answer of the wrong length,
is its last transaction and ends it with TransportError, code 2; a failed read has changed no register. -/
def Obligations.FailedTransactionGivesTransportError : Prop :=
  ErrKind.transportError.code = 2 ∧
  ∀ (i : Instr) (s : State) (w : CmdWord) (k : Nat) (buf : List Byte) (t : Txn) (acts : List RegWrite),
    s.seq = .busy w k buf → codeOf i s.devAddr k buf = .txn t →
    (∀ left, s.nextTurn = ⟨acts, .fail left⟩ → ∃ m,
      exec i s = .next (s.afterTxn .idle m [.txn t .fail, .res (.err .transportError)]) ∧
      ((∀ d r v, t ≠ .wrB d r v) → m = applyActs acts s.mem)) ∧
    ∀ d r n bs, t = .rdBlk d r n → bs.length ≠ n → s.nextTurn = ⟨acts, .badLength bs⟩ →
      exec i s = .next
        (s.afterTxn .idle (applyActs acts s.mem) [.txn t (.bytes bs), .res (.err .transportError)])

/-- R203 with R202 and R57: TransportError arises in no other way than from a transaction that answers `Fail` or a block
read that answers with another number of bytes than it asked for, and the step that raises it records that transaction and
that one error, and ends the command. -/
def Obligations.TransportErrorOnlyFromAFailedTransaction : Prop :=
  ∀ (s t : State), step s = .next t → .res (.err .transportError) ∈ t.newEvents s →
    ∃ tx a, t.newEvents s = [.txn tx a, .res (.err .transportError)] ∧ t.seq = .idle ∧
      (a = .fail ∨ ∃ d r n bs, tx = .rdBlk d r n ∧ a = .bytes bs ∧ bs.length ≠ n)

/-- R205: presenting a word asks nothing of the bus; a word that decodes to no command is reported as IllegalCommand and an
operand outside its domain as InvalidArgument, whatever the bus would answer; a step that reports one of the two is the step
of an `Idle` codec, and reports the same in every environment; and a step reports at most one result, as its last event. -/
def Obligations.ErrorsAreCheckedBeforeTheBus : Prop :=
  (∀ (s t : State), s.seq = .idle → step s = .next t →
    t.env = s.env ∧ t.draws = s.draws ∧ t.mem = s.mem ∧ (t.newEvents s).countP Event.isTxn = 0) ∧
  (∀ (s : State) (w : CmdWord) (ws : List CmdWord), s.seq = .idle → s.host = w :: ws → ∃ t, step s = .next t ∧
    ((decode w).isCommand = false → .res (.err .illegalCommand) ∈ t.newEvents s) ∧
    (∀ a : Byte, decode w = .command (.setRange a) → a ∉ ([1, 2, 3] : List Byte) →
      .res (.err .invalidArgument) ∈ t.newEvents s) ∧
    ∀ a : Byte, decode w = .command (.setFilter a) → 10 < a.toNat → .res (.err .invalidArgument) ∈ t.newEvents s) ∧
  (∀ (s t : State) (k : ErrKind), step s = .next t → k ∈ [ErrKind.illegalCommand, .invalidArgument] →
    .res (.err k) ∈ t.newEvents s → s.seq = .idle ∧
      ∀ (env : List Turn) (draws : Nat), ∃ u, step { s with env := env, draws := draws } = .next u ∧
        u.newEvents { s with env := env, draws := draws } = t.newEvents s) ∧
  ∀ (s t : State), step s = .next t → (t.newEvents s).countP Event.isRes ≤ 1 ∧
    (t.newEvents s).dropLast.countP Event.isRes = 0

/-- R200: the numeric result codes. -/
def Obligations.ResultCodes : Prop :=
  (∀ v : Value, (Result.ok v).code = 0) ∧ (Result.err .invalidArgument).code = 1 ∧
  (Result.err .transportError).code = 2 ∧ (Result.err .illegalCommand).code = 3

/-- R15, R62: every value a command returns is of that command's result type, an `Int20` in its range. -/
def Obligations.ResultsHaveTheCommandsType : Prop :=
  ∀ (i : Instr) (s t : State) (v : Value), exec i s = .next t → .res (.ok v) ∈ t.newEvents s →
    v.hasType (resultType i) = true

/-- I17: while the environment does not answer, a command that stands before a transaction stays where it is, with nothing
recorded; only the environment's own steps show. -/
def Obligations.UnansweredTransactionWaits : Prop :=
  ∀ (i : Instr) (s : State) (w : CmdWord) (k : Nat) (buf : List Byte) (t : Txn) (acts : List RegWrite),
    s.seq = .busy w k buf → codeOf i s.devAddr k buf = .txn t → s.nextTurn = ⟨acts, .wait⟩ →
    exec i s = .next (s.afterTxn s.seq (applyActs acts s.mem) [])

/-! ## Whole-machine rules -/

/-- R20: creation takes any 7-bit address, 0x1D by default; no step changes it; every transaction carries it. -/
def Obligations.DeviceAddressIsImmutable : Prop :=
  (∀ (d : DevAddr) (m : Memory) (h : List CmdWord) (e : List Turn), (State.create d m h e).devAddr = d) ∧
  State.reset.devAddr = 0x1D ∧
  ∀ (s t : State), step s = .next t → t.devAddr = s.devAddr ∧
    ∀ tx a, .txn tx a ∈ t.newEvents s → tx.dev = s.devAddr

/-- R24: the codec's state at creation. -/
def Obligations.CreationIsIdle : Prop :=
  (∀ (d : DevAddr) (m : Memory) (h : List CmdWord) (e : List Turn),
    (State.create d m h e).devAddr = d ∧ (State.create d m h e).seq = .idle) ∧
  State.reset.devAddr = 0x1D ∧ State.reset.seq = .idle

/-- R230, R231 and log 1: creation has issued no transaction, and every register of every sensor reads what the parameter
`initRegs` gives it, whatever that is. -/
def Obligations.ResetReadsInitRegs : Prop :=
  State.reset.trace = [] ∧ ∀ (d : DevAddr) (r : RegAddr), readReg State.reset.mem d r = Config.initRegs d r

/-- R43, R32: the transactions of the codec are one-byte reads of POWER_CTL, RANGE, FILTER and STATUS, one-byte writes of
POWER_CTL, RANGE and FILTER, 2-byte blocks at 0x06 and 9-byte blocks at 0x08, and no others. -/
def Obligations.TransactionsStayInTheRegisterMap : Prop :=
  ∀ (s t : State) (tx : Txn) (a : Answer), step s = .next t → .txn tx a ∈ t.newEvents s →
    (∃ r, tx = .rdB s.devAddr r ∧ r ∈ ([0x2D, 0x2C, 0x28, 0x04] : List RegAddr)) ∨
    (∃ r v, tx = .wrB s.devAddr r v ∧ r ∈ ([0x2D, 0x2C, 0x28] : List RegAddr)) ∨
    tx = .rdBlk s.devAddr 0x06 2 ∨ tx = .rdBlk s.devAddr 0x08 9

/-- The invariant holds right after reset. -/
def Obligations.ResetMeetsTheInvariant : Prop := Inv State.reset

/-- Every step from a state with the invariant leaves it: the register space canonical, the bus used only as R43 says, the
command in progress at a point of its pseudocode with exactly its own transactions in the history, and every other presented
word followed by its transactions and exactly one result. That a word that decodes to no command stands in the history too
is the model's choice (log 7). -/
def Obligations.StepKeepsTheInvariant : Prop :=
  ∀ s t : State, Inv s → step s = .next t → Inv t

/-- From a state with the invariant the machine never stops: no fault and no refusal. -/
def Obligations.InvariantStatesNeverStop : Prop :=
  ∀ s : State, Inv s → ∃ t, step s = .next t

/-- R23: the step index counts the completed transactions of the command in progress and stays below the number that
command issues at most: 2 for BEGIN, END, SET_RANGE and SET_FILTER, 1 for every other. -/
def Obligations.StepIndexStaysInTheCommand : Prop :=
  (∀ (s : State) (cmd : CmdWord) (k : Nat) (buf : List Byte), Inv s → s.seq = .busy cmd k buf →
    ∃ i, decode cmd = .command i ∧
      k < (if i ∈ [Instr.beginCmd, .endCmd] ∨ i.takesOperand = true then 2 else 1)) ∧
  (∀ (s t : State) (w : CmdWord) (k : Nat) (buf : List Byte), s.seq = .idle → step s = .next t →
    t.seq = .busy w k buf → k = 0 ∧ buf = []) ∧
  ∀ (s t : State) (cmd cmd' : CmdWord) (k k' : Nat) (buf buf' : List Byte), s.seq = .busy cmd k buf →
    step s = .next t → t.seq = .busy cmd' k' buf' →
    cmd' = cmd ∧ k' = k + (t.newEvents s).countP Event.isTxn

/-- R33: a write by the codec puts back the byte the same command read, with only the target field replaced: STANDBY in
POWER_CTL, RANGE in RANGE, LPF in FILTER. -/
def Obligations.WritesChangeOnlyTheField : Prop :=
  ∀ (s t : State) (d : DevAddr) (r : RegAddr) (v : Byte) (a : Answer), Inv s → step s = .next t →
    .txn (.wrB d r v) a ∈ t.newEvents s →
    ∃ (w : CmdWord) (b : Byte) (before : List Event), s.seq = .busy w 1 [b] ∧
      s.trace = before ++ [.cmd w, .txn (.rdB d r) (.byte b)] ∧
      ((r = 0x2D ∧ v &&& 0xFE = b &&& 0xFE) ∨ (r = 0x2C ∧ v &&& 0xFC = b &&& 0xFC) ∨
        (r = 0x28 ∧ v &&& 0xF0 = b &&& 0xF0))

/-- The last sentences of R64 with R120 and R140: a command never writes RANGE code 0b00 or a FILTER code 11 to 15. -/
def Obligations.ReservedCodesAreNeverWritten : Prop :=
  ∀ (s t : State) (d : DevAddr) (v : Byte) (a : Answer), Inv s → step s = .next t →
    (.txn (.wrB d 0x2C v) a ∈ t.newEvents s → v &&& 0x03 ≠ 0x00) ∧
    (.txn (.wrB d 0x28 v) a ∈ t.newEvents s → (v &&& 0x0F).toNat ≤ 10)

/-- The frame of all 13 commands. A step changes neither the device address nor the host's words, and leaves every
register of every device alone but those the environment's own steps name and the one that the write standing next in the
command's pseudocode names. -/
def Obligations.FrameOfEveryCommand : Prop :=
  ∀ (i : Instr) (s t : State), exec i s = .next t →
    t.devAddr = s.devAddr ∧ t.host = s.host ∧ (∃ es, t.trace = s.trace ++ es) ∧
    ∀ (d : DevAddr) (r : RegAddr), s.nextTurn.quiet d r → storeTarget i s ≠ some (d, r) →
      readReg t.mem d r = readReg s.mem d r

/-- The commands that only read (R26 to R30, R105, R124, R144, R162, R163, R183 to R186): whatever they answer, the register
space after a step is the one the environment left. -/
def Obligations.ReadingCommandsStoreNothing : Prop :=
  ∀ (i : Instr) (s t : State),
    i ∈ [Instr.isRunning, .getRange, .getFilter, .getStatus, .getTemperature, .getAxes, .getAxisX, .getAxisY,
      .getAxisZ] →
    exec i s = .next t → (t.newEvents s).countP Event.isWrite = 0 ∧ (t.mem = s.mem ∨ t.mem = applyActs s.nextTurn.acts s.mem)

/-- R50, R233: the lost update. Another agent writes `v2` into the register between the read, which gave `v1`, and the
write of BEGIN, END, SET_RANGE or SET_FILTER. The write stores the byte read with only the field changed; `v2` is lost. -/
def Obligations.RacingWriteIsLost : Prop :=
  ∀ (s : State) (w : CmdWord) (v1 v2 : Byte) (acts : List RegWrite), s.seq = .busy w 1 [v1] →
    ∀ (i : Instr) (r : RegAddr) (v : Byte),
      (i = .beginCmd ∧ v1.getLsbD 0 = true ∧ r = 0x2D ∧ v = v1 &&& 0xFE) ∨
      (i = .endCmd ∧ v1.getLsbD 0 = false ∧ r = 0x2D ∧ v = v1 ||| 0x01) ∨
      (∃ a, i = .setRange a ∧ a ∈ ([1, 2, 3] : List Byte) ∧ r = 0x2C ∧ v = (v1 &&& 0xFC) ||| a) ∨
      (∃ a, i = .setFilter a ∧ a.toNat ≤ 10 ∧ r = 0x28 ∧ v = (v1 &&& 0xF0) ||| a) →
    s.nextTurn = ⟨acts ++ [⟨s.devAddr, r, v2⟩], .serve⟩ →
    readReg s.afterActs.mem s.devAddr r = v2 ∧
    ∃ t, exec i s = .next t ∧ t.seq = .idle ∧ t.trace.getLast? = some (.res (.ok .unit)) ∧
      readReg t.mem s.devAddr r = v

/-- R32, R40, R213: what other devices' registers hold, and this sensor's registers outside the map, makes no difference to
the codec: two states that agree elsewhere take steps that agree elsewhere. -/
def Obligations.OtherRegistersDoNotMatter : Prop :=
  ∀ s s' t : State, SameView s s' → step s = .next t → ∃ t', step s' = .next t' ∧ SameView t t'
end

