-- ==== Sys2Proof/Laws/PerInstr.lean ====
section
/-! SUPPORT. Facts about every command as syntax, one lemma per constructor. The family EncodingFields: the two fields
of R60 of a command's word are its OP and its ARG. -/

namespace Sys2Proof.Laws.EncodingFields

/-- OP in bits 15:8 and ARG in bits 7:0 of the word of `i` (R60, R62). -/
def Statement (i : Instr) : Prop := opField (encode i) = opOf i ∧ argField (encode i) = argOf i

/-- The fields of a word put together from two bytes are the two bytes. -/
theorem fields_append (a b : Byte) : opField (a ++ b) = a ∧ argField (a ++ b) = b := by
  constructor
  · apply BitVec.eq_of_toNat_eq
    have := a.isLt; have := b.isLt
    simp only [opField, BitVec.extractLsb'_toNat, BitVec.toNat_append]
    rw [← Nat.shiftLeft_add_eq_or_of_lt b.isLt]; omega
  · apply BitVec.eq_of_toNat_eq
    have := a.isLt; have := b.isLt
    simp only [argField, BitVec.extractLsb'_toNat, BitVec.toNat_append]
    rw [← Nat.shiftLeft_add_eq_or_of_lt b.isLt]; omega

theorem beginCmd : Statement .beginCmd := fields_append _ _
theorem endCmd : Statement .endCmd := fields_append _ _
theorem isRunning : Statement .isRunning := fields_append _ _
theorem getRange : Statement .getRange := fields_append _ _
theorem setRange (a : Byte) : Statement (.setRange a) := fields_append _ _
theorem getFilter : Statement .getFilter := fields_append _ _
theorem setFilter (a : Byte) : Statement (.setFilter a) := fields_append _ _
theorem getStatus : Statement .getStatus := fields_append _ _
theorem getTemperature : Statement .getTemperature := fields_append _ _
theorem getAxes : Statement .getAxes := fields_append _ _
theorem getAxisX : Statement .getAxisX := fields_append _ _
theorem getAxisY : Statement .getAxisY := fields_append _ _
theorem getAxisZ : Statement .getAxisZ := fields_append _ _

end Sys2Proof.Laws.EncodingFields
end

