-- ==== Sys2Proof/Laws/Encoding.lean ====
section
/-! SUPPORT. The small laws of the command word's two fields and of the decode of a command without operand. -/

namespace Sys2Proof

/-- A word is its OP above its ARG (R60). -/
theorem word_of_fields (w : CmdWord) : opField w ++ argField w = w := by
  apply BitVec.eq_of_toNat_eq
  have := w.isLt
  simp only [opField, argField, BitVec.extractLsb'_toNat, BitVec.toNat_append]
  rw [← Nat.shiftLeft_add_eq_or_of_lt (by omega)]; omega

@[simp] theorem opField_append (a b : Byte) : opField (a ++ b) = a := (Laws.EncodingFields.fields_append a b).1

@[simp] theorem argField_append (a b : Byte) : argField (a ++ b) = b := (Laws.EncodingFields.fields_append a b).2

@[simp] theorem decodePlain_zero (i : Instr) : decodePlain 0 i = .command i := rfl

theorem decodePlain_of_ne {arg : Byte} (i : Instr) (h : arg ≠ 0) : decodePlain arg i = .illegal .argNotZero :=
  if_neg h

theorem decodePlain_command {arg : Byte} {i j : Instr} (h : decodePlain arg i = .command j) : arg = 0 ∧ i = j := by
  unfold decodePlain at h
  split at h <;> simp_all

/-- A byte from its value. -/
theorem byte_of_toNat {b : Byte} {n : Nat} (h : b.toNat = n) : b = BitVec.ofNat 8 n := by
  subst h; simp

/-- The word the host presents for a table row of at most 16 bits decodes as the row. -/
theorem decode_tableWord {nbits w : Nat} {i : Instr} (h : decodeTableWord nbits w = some i) :
    decode (tableWord nbits w) = .command i := by
  unfold decodeTableWord at h
  split at h
  · unfold Decoded.instr? at h
    split at h <;> simp_all
  · simp at h

end Sys2Proof
end

