-- ==== Sys2Proof/Laws/Float.lean ====
section
/-! SUPPORT. The laws of the binary64 primitives: what the magnitude bits stand for, what one rounding gives, and from it
the rounding error of `f64`, `fadd` and `fdiv` in the range the temperature formula uses. -/

namespace Sys2Proof.Machine

/-- The number of units of 2^-1074 that the magnitude bits `m` stand for. -/
def magUnits (m : Nat) : Nat := if m / 2 ^ 52 = 0 then m else (2 ^ 52 + m % 2 ^ 52) * 2 ^ (m / 2 ^ 52 - 1)

/-- The magnitude is that of the low 63 bits. -/
theorem f64Mag_eq (x : F64) : f64Mag x = magUnits (x.toNat % 2 ^ 63) := by
  have hx := x.isLt
  have h1 : f64Exp x = x.toNat % 2 ^ 63 / 2 ^ 52 := by
    simp only [f64Exp, BitVec.extractLsb'_toNat, Nat.shiftRight_eq_div_pow]; omega
  have h2 : f64Frac x = x.toNat % 2 ^ 63 % 2 ^ 52 := by
    simp only [f64Frac, BitVec.extractLsb'_toNat, Nat.shiftRight_eq_div_pow]; omega
  unfold f64Mag magUnits
  rw [h1, h2]
  split
  · omega
  · rfl

/-- A packed value as a number. -/
theorem f64Pack_toNat {neg : Bool} {m : Nat} (h : m < 2 ^ 63) :
    (f64Pack neg m).toNat = m + if neg then 2 ^ 63 else 0 := by
  unfold f64Pack
  cases neg <;> simp <;> omega

theorem f64Mag_pack {neg : Bool} {m : Nat} (h : m < 2 ^ 63) : f64Mag (f64Pack neg m) = magUnits m := by
  rw [f64Mag_eq, f64Pack_toNat h]
  congr 1
  cases neg <;> simp <;> omega

theorem f64Neg_pack {neg : Bool} {m : Nat} (h : m < 2 ^ 63) : f64Neg (f64Pack neg m) = neg := by
  have hx := f64Pack_toNat (neg := neg) h
  unfold f64Neg
  rw [BitVec.getLsbD, hx, Nat.testBit_eq_decide_div_mod_eq]
  cases neg <;> simp <;> omega

theorem f64Units_pack {neg : Bool} {m : Nat} (h : m < 2 ^ 63) :
    f64Units (f64Pack neg m) = if neg then -(magUnits m : Int) else magUnits m := by
  unfold f64Units
  rw [f64Neg_pack h, f64Mag_pack h]

theorem f64IsFinite_pack {neg : Bool} {m : Nat} (h : m < 2 ^ 63) :
    f64IsFinite (f64Pack neg m) = true ↔ m < 0x7FF * 2 ^ 52 := by
  have h1 : f64Exp (f64Pack neg m) = m / 2 ^ 52 := by
    simp only [f64Exp, BitVec.extractLsb'_toNat, Nat.shiftRight_eq_div_pow, f64Pack_toNat h]
    cases neg <;> simp <;> omega
  unfold f64IsFinite
  rw [h1]; simp; omega

/-- A significand and its exponent, put together, stand for what they say, also when the significand has just reached
the next power of two. -/
theorem magUnits_eq {E q : Nat} (h1 : E = 0 ∨ 2 ^ 52 ≤ q) (h2 : q ≤ 2 ^ 53) : magUnits (E * 2 ^ 52 + q) = q * 2 ^ E := by
  unfold magUnits
  by_cases hq : q < 2 ^ 52
  · have : E = 0 := by omega
    subst this
    rw [if_pos (by omega)]; simp
  · by_cases h3 : q = 2 ^ 53
    · subst h3
      rw [if_neg (by omega)]
      have e1 : (E * 2 ^ 52 + 2 ^ 53) / 2 ^ 52 = E + 2 := by omega
      have e2 : (E * 2 ^ 52 + 2 ^ 53) % 2 ^ 52 = 0 := by omega
      rw [e1, e2, Nat.add_zero, Nat.add_sub_assoc (by decide) E]
      have := pow_succ 2 E; simp only [Nat.reduceSub]
      omega
    · rw [if_neg (by omega)]
      have e1 : (E * 2 ^ 52 + q) / 2 ^ 52 = E + 1 := by omega
      have e2 : (E * 2 ^ 52 + q) % 2 ^ 52 = q - 2 ^ 52 := by omega
      have e3 : 2 ^ 52 + (q - 2 ^ 52) = q := by omega
      rw [e1, e2, e3, Nat.add_sub_cancel]

/-- The nearest integer is within half, and even where it is exactly half away. -/
theorem roundHalfEven_near (n : Nat) {d : Nat} (hd : 0 < d) :
    2 * (roundHalfEven n d * d) ≤ 2 * n + d ∧ 2 * n ≤ 2 * (roundHalfEven n d * d) + d ∧
    ((2 * (roundHalfEven n d * d) = 2 * n + d ∨ 2 * n = 2 * (roundHalfEven n d * d) + d) → roundHalfEven n d % 2 = 0) := by
  have h := Nat.div_add_mod n d
  have hm := Nat.mod_lt n hd
  unfold roundHalfEven
  generalize n / d = a at h ⊢
  generalize n % d = r at h hm ⊢
  have h : a * d + r = n := by rw [mul_comm]; exact h
  split
  · refine ⟨by omega, by omega, by omega⟩
  · split
    · have : (a + 1) * d = a * d + d := by ring
      rw [this]; refine ⟨by omega, by omega, by omega⟩
    · have hr : 2 * r = d := by omega
      rcases Nat.mod_two_eq_zero_or_one a with h2 | h2
      · rw [h2]; refine ⟨by simp; omega, by simp; omega, by simp [h2]⟩
      · rw [h2]
        have : (a + 1) * d = a * d + d := by ring
        rw [this]; refine ⟨by omega, by omega, by omega⟩

theorem scaleBy_pos (n : Nat) {d : Nat} (hd : 0 < d) (e : Int) : 0 < (scaleBy n d e).2 := by
  unfold scaleBy; positivity

/-- Scaling multiplies the fraction by `2^-e`. -/
theorem scaleBy_ratio (n : Nat) {d : Nat} (hd : 0 < d) (e : Int) :
    ((scaleBy n d e).1 : ℚ) / (scaleBy n d e).2 = n / d * 2 ^ (-e) := by
  unfold scaleBy
  have hd' : (d : ℚ) ≠ 0 := by positivity
  rcases le_total 0 e with h | h
  · obtain ⟨k, rfl⟩ := Int.eq_ofNat_of_zero_le h
    simp [zpow_neg]
    field_simp
  · obtain ⟨k, hk⟩ := Int.eq_ofNat_of_zero_le (a := -e) (by omega)
    obtain rfl : e = -k := by omega
    simp
    field_simp

/-- At the scale chosen the fraction lies in [2^52, 2^53), or below 2^53 at the least exponent. -/
theorem f64Scale_bounds {n d : Nat} (hn : 0 < n) (hd : 0 < d) :
    -1074 ≤ f64Scale n d ∧ (n / d * 2 ^ (-f64Scale n d) : ℚ) < 2 ^ 53 ∧
    (f64Scale n d = -1074 ∨ (2 ^ 52 : ℚ) ≤ n / d * 2 ^ (-f64Scale n d)) := by
  set e0 : Int := (n.log2 : Int) - (d.log2 : Int) - 52 with he0
  have hn1 := Nat.log2_self_le hn.ne'
  have hn2 := Nat.lt_log2_self (n := n)
  have hd1 := Nat.log2_self_le hd.ne'
  have hd2 := Nat.lt_log2_self (n := d)
  have hdq : (0 : ℚ) < d := by positivity
  have two : (2 : ℚ) ≠ 0 := by norm_num
  have key : ∀ e : Int, (2 : ℚ) ^ (-e) = 2 ^ (-(n.log2 : Int)) * 2 ^ (d.log2 : Int) * 2 ^ (e0 - e + 52) := by
    intro e
    rw [← zpow_add₀ two, ← zpow_add₀ two]; congr 1; omega
  have b1 : (2 : ℚ)⁻¹ < n / d * (2 ^ (-(n.log2 : Int)) * 2 ^ (d.log2 : Int)) := by
    have h1 : (2 : ℚ) ^ n.log2 ≤ n := by exact_mod_cast hn1
    have h2 : (d : ℚ) < 2 ^ (d.log2 + 1) := by exact_mod_cast hd2
    rw [zpow_neg, zpow_natCast, zpow_natCast]
    rw [div_mul_eq_mul_div, lt_div_iff₀ hdq]
    have p : (0 : ℚ) < 2 ^ n.log2 := by positivity
    have : (1 : ℚ) ≤ n * (2 ^ n.log2)⁻¹ := by
      rw [← div_eq_mul_inv, le_div_iff₀ p]; simpa using h1
    calc (2 : ℚ)⁻¹ * d < 2⁻¹ * 2 ^ (d.log2 + 1) := by gcongr
      _ = 2 ^ d.log2 := by rw [pow_succ]; ring
      _ ≤ (n * (2 ^ n.log2)⁻¹) * 2 ^ d.log2 := le_mul_of_one_le_left (by positivity) this
      _ = _ := by ring
  have b2 : (n / d * (2 ^ (-(n.log2 : Int)) * 2 ^ (d.log2 : Int)) : ℚ) < 2 := by
    have h1 : (n : ℚ) < 2 ^ (n.log2 + 1) := by exact_mod_cast hn2
    have h2 : (2 : ℚ) ^ d.log2 ≤ d := by exact_mod_cast hd1
    rw [zpow_neg, zpow_natCast, zpow_natCast, div_mul_eq_mul_div, div_lt_iff₀ hdq]
    have p : (0 : ℚ) < 2 ^ n.log2 := by positivity
    have : (n * (2 ^ n.log2)⁻¹ : ℚ) < 2 := by
      rw [← div_eq_mul_inv, div_lt_iff₀ p, ← pow_succ']; exact h1
    calc (n * ((2 ^ n.log2)⁻¹ * 2 ^ d.log2) : ℚ) = (n * (2 ^ n.log2)⁻¹) * 2 ^ d.log2 := by ring
      _ < 2 * 2 ^ d.log2 := by gcongr
      _ ≤ 2 * d := by gcongr
  have c1 : (2 : ℚ) ^ 51 < n / d * 2 ^ (-e0) := by
    rw [key e0]; simp only [sub_self, zero_add]
    have : (2 : ℚ) ^ (52 : Int) = 2 ^ 52 := by norm_cast
    rw [this]
    calc (2 : ℚ) ^ 51 = (2 : ℚ)⁻¹ * 2 ^ 52 := by norm_num
      _ < ((n : ℚ) / d * (2 ^ (-(n.log2 : Int)) * 2 ^ (d.log2 : Int))) * 2 ^ 52 := by gcongr
      _ = _ := by ring
  have c2 : (n / d * 2 ^ (-e0) : ℚ) < 2 ^ 53 := by
    rw [key e0]; simp only [sub_self, zero_add]
    have : (2 : ℚ) ^ (52 : Int) = 2 ^ 52 := by norm_cast
    rw [this]
    calc (n / d * (2 ^ (-(n.log2 : Int)) * 2 ^ (d.log2 : Int) * 2 ^ 52) : ℚ)
        = (n / d * (2 ^ (-(n.log2 : Int)) * 2 ^ (d.log2 : Int))) * 2 ^ 52 := by ring
      _ < 2 * 2 ^ 52 := by gcongr
      _ = 2 ^ 53 := by norm_num
  set e1 : Int := if (scaleBy n d e0).1 / (scaleBy n d e0).2 < 2 ^ 52 then e0 - 1 else e0 with he1
  have hscale : f64Scale n d = max e1 (-1074) := rfl
  have hpos := scaleBy_pos n hd e0
  have hr := scaleBy_ratio n hd e0
  have d1 : (2 : ℚ) ^ 52 ≤ n / d * 2 ^ (-e1) ∧ (n / d * 2 ^ (-e1) : ℚ) < 2 ^ 53 := by
    rw [he1]
    split
    · rename_i h
      have h : (scaleBy n d e0).1 < 2 ^ 52 * (scaleBy n d e0).2 := (Nat.div_lt_iff_lt_mul hpos).mp h
      have h' : ((scaleBy n d e0).1 : ℚ) < 2 ^ 52 * (scaleBy n d e0).2 := by exact_mod_cast h
      have h' : ((scaleBy n d e0).1 : ℚ) / (scaleBy n d e0).2 < 2 ^ 52 := by
        rw [div_lt_iff₀ (by exact_mod_cast hpos)]; exact h'
      rw [hr] at h'
      have hh : (2 : ℚ) ^ (-(e0 - 1)) = 2 ^ (-e0) * 2 := by
        rw [show -(e0 - 1) = -e0 + 1 by ring, zpow_add₀ two]; simp
      rw [hh, ← mul_assoc]
      constructor
      · calc (2 : ℚ) ^ 52 = 2 ^ 51 * 2 := by norm_num
          _ ≤ _ := by gcongr
      · calc _ < (2 : ℚ) ^ 52 * 2 := by gcongr
          _ = _ := by norm_num
    · rename_i h
      have h : 2 ^ 52 * (scaleBy n d e0).2 ≤ (scaleBy n d e0).1 := (Nat.le_div_iff_mul_le hpos).mp (by omega)
      have h' : (2 : ℚ) ^ 52 * (scaleBy n d e0).2 ≤ (scaleBy n d e0).1 := by exact_mod_cast h
      have h' : (2 : ℚ) ^ 52 ≤ ((scaleBy n d e0).1 : ℚ) / (scaleBy n d e0).2 := by
        rw [le_div_iff₀ (by exact_mod_cast hpos)]; exact h'
      rw [hr] at h'
      exact ⟨h', c2⟩
  rw [hscale]
  refine ⟨le_max_right _ _, ?_, ?_⟩
  · refine lt_of_le_of_lt ?_ d1.2
    gcongr
    · norm_num
    · exact le_max_left _ _
  · rcases le_total e1 (-1074) with h | h
    · left; exact max_eq_right h
    · right; rw [max_eq_left h]; exact d1.1

/-- What rounding gives, in units of 2^-1074: a significand `q` and an exponent `E` whose value is within half a unit in
the last place of `n / d`, with `q` even when it is exactly half. -/
theorem f64RoundMag_spec {n d : Nat} (hn : 0 < n) (hd : 0 < d) :
    ∃ E q : Nat, f64RoundMag n d = min (E * 2 ^ 52 + q) (0x7FF * 2 ^ 52) ∧ magUnits (E * 2 ^ 52 + q) = q * 2 ^ E ∧
      (E = 0 ∨ 2 ^ 52 ≤ q) ∧ q ≤ 2 ^ 53 ∧
      (E = 0 ∨ (2 : ℚ) ^ 52 * 2 ^ E ≤ n * 2 ^ 1074 / d) ∧ (n * 2 ^ 1074 / d : ℚ) < 2 ^ 53 * 2 ^ E ∧
      |(q * 2 ^ E : ℚ) - n * 2 ^ 1074 / d| ≤ 2 ^ E / 2 ∧
      (|(q * 2 ^ E : ℚ) - n * 2 ^ 1074 / d| = 2 ^ E / 2 → q % 2 = 0) := by
  obtain ⟨hs1, hs2, hs3⟩ := f64Scale_bounds hn hd
  set e := f64Scale n d with he
  obtain ⟨E, hE⟩ := Int.eq_ofNat_of_zero_le (a := e + 1074) (by omega)
  have two : (2 : ℚ) ≠ 0 := by norm_num
  have hX : (n * 2 ^ 1074 / d : ℚ) = (n / d * 2 ^ (-e)) * 2 ^ E := by
    have : (2 : ℚ) ^ 1074 = 2 ^ (-e) * 2 ^ E := by
      rw [← zpow_natCast, ← zpow_natCast, ← zpow_add₀ two]; congr 1; push_cast; omega
    rw [this]; ring
  have hpos := scaleBy_pos n hd e
  have hr := scaleBy_ratio n hd e
  set s := scaleBy n d e with hs
  obtain ⟨q1, q2, q3⟩ := roundHalfEven_near s.1 hpos
  set q := roundHalfEven s.1 s.2 with hq
  have hposq : (0 : ℚ) < s.2 := by exact_mod_cast hpos
  set x : ℚ := (s.1 : ℚ) / s.2 with hx
  have hsx : (s.1 : ℚ) = x * s.2 := by rw [hx]; field_simp
  have q1' : (q : ℚ) ≤ x + 1 / 2 := by
    have : (2 * (q * s.2) : ℚ) ≤ 2 * s.1 + s.2 := by exact_mod_cast q1
    rw [hsx] at this
    have : (q : ℚ) * s.2 ≤ (x + 1 / 2) * s.2 := by linarith
    exact le_of_mul_le_mul_right this hposq
  have q2' : x - 1 / 2 ≤ (q : ℚ) := by
    have : (2 * s.1 : ℚ) ≤ 2 * (q * s.2) + s.2 := by exact_mod_cast q2
    rw [hsx] at this
    have : (x - 1 / 2) * s.2 ≤ (q : ℚ) * s.2 := by linarith
    exact le_of_mul_le_mul_right this hposq
  rw [← hr] at hs2 hs3 hX
  have hE0 : E = 0 ∨ (2 : ℚ) ^ 52 ≤ x := by
    rcases hs3 with h | h
    · left; omega
    · right; exact h
  have hql : E = 0 ∨ 2 ^ 52 ≤ q := by
    rcases hE0 with h | h
    · exact .inl h
    · right
      have : (2 : ℚ) ^ 52 < q + 1 := by linarith
      have : 2 ^ 52 < q + 1 := by exact_mod_cast this
      omega
  have hqu : q ≤ 2 ^ 53 := by
    have : (q : ℚ) < 2 ^ 53 + 1 := by linarith
    have : q < 2 ^ 53 + 1 := by exact_mod_cast this
    omega
  have hM : f64RoundMag n d = min (E * 2 ^ 52 + q) (0x7FF * 2 ^ 52) := by
    have h1 : f64RoundMag n d = min ((e + 1074).toNat * 2 ^ 52 + q) (0x7FF * 2 ^ 52) := rfl
    rw [hE] at h1
    simpa only [Int.toNat_natCast] using h1
  have hp : (0 : ℚ) < 2 ^ E := by positivity
  have hd' : |(q * 2 ^ E : ℚ) - n * 2 ^ 1074 / d| = |(q : ℚ) - x| * 2 ^ E := by
    rw [hX, ← sub_mul, abs_mul, abs_of_pos hp]
  refine ⟨E, q, hM, magUnits_eq hql hqu, hql, hqu, ?_, ?_, ?_, ?_⟩
  · rw [hX]
    rcases hE0 with h | h
    · exact .inl h
    · right; gcongr
  · rw [hX]; gcongr
  · rw [hd', div_eq_inv_mul]
    gcongr
    rw [abs_le]; constructor <;> linarith
  · rw [hd', div_eq_inv_mul]
    intro h
    have h := mul_right_cancel₀ hp.ne' h
    apply q3
    rcases abs_eq (by norm_num) |>.mp h with h | h
    · left
      have : (2 * (q * s.2) : ℚ) = 2 * s.1 + s.2 := by rw [hsx]; rw [show (q : ℚ) = x + 2⁻¹ by linarith]; ring
      exact_mod_cast this
    · right
      have : (2 * s.1 : ℚ) = 2 * (q * s.2) + s.2 := by rw [hsx]; rw [show (q : ℚ) = x - 2⁻¹ by linarith]; ring
      exact_mod_cast this

/-- `f64` of a fraction that is not 0: its sign and its rounded magnitude. -/
theorem f64_eq_pack {n : Int} {d : Nat} (hn : n ≠ 0) : f64 n d = f64Pack (n < 0) (f64RoundMag n.natAbs d) := by
  simp only [f64, f64Round]
  rw [if_neg (by omega)]

theorem f64_zero (d : Nat) : f64 0 d = f64Zero false := rfl

theorem f64RoundMag_lt (n d : Nat) : f64RoundMag n d < 2 ^ 63 := by
  have : f64RoundMag n d ≤ 0x7FF * 2 ^ 52 := min_le_right _ _
  omega

/-- The rounding error of `f64`: where the exact value is below 2^900, the result is finite, and it differs from the exact
value by at most 2^-53 of it or half the least positive value. -/
theorem f64_error {n : Int} {d : Nat} (hd : 0 < d) (hb : n.natAbs < 2 ^ 900 * d) :
    f64IsFinite (f64 n d) = true ∧
    |(f64Units (f64 n d) : ℚ) - n * 2 ^ 1074 / d| ≤ max (|(n * 2 ^ 1074 / d : ℚ)| / 2 ^ 53) (1 / 2) := by
  have hdq : (0 : ℚ) < d := by positivity
  by_cases hn : n = 0
  · subst hn
    rw [f64_zero, f64Zero]
    refine ⟨(f64IsFinite_pack (by norm_num)).mpr (by norm_num), ?_⟩
    rw [f64Units_pack (by norm_num)]
    simp [magUnits]
  · obtain ⟨E, q, hm, hv, h1, h2, h3, h4, h5, -⟩ := f64RoundMag_spec (n := n.natAbs) (by omega) hd
    have hlt := f64RoundMag_lt n.natAbs d
    have habs : |(n * 2 ^ 1074 / d : ℚ)| = n.natAbs * 2 ^ 1074 / d := by
      rw [abs_div, abs_mul, abs_of_pos hdq, abs_of_pos (a := (2 : ℚ) ^ 1074) (by positivity), Nat.cast_natAbs,
        Int.cast_abs]
    have hE : E < 1923 := by
      by_contra hE
      have h3 := h3.resolve_left (by omega)
      have hb : (n.natAbs : ℚ) < 2 ^ 900 * d := by exact_mod_cast hb
      have : (2 : ℚ) ^ 1974 < 2 ^ 52 * 2 ^ E := by
        rw [← pow_add]; exact pow_lt_pow_right₀ (by norm_num) (by omega)
      have : (n.natAbs * 2 ^ 1074 / d : ℚ) < 2 ^ 1974 := by
        rw [div_lt_iff₀ hdq]
        calc (n.natAbs * 2 ^ 1074 : ℚ) < 2 ^ 900 * d * 2 ^ 1074 := by gcongr
          _ = 2 ^ 1974 * d := by rw [mul_right_comm, ← pow_add]
      linarith
    have hM : f64RoundMag n.natAbs d = E * 2 ^ 52 + q := by rw [hm]; omega
    rw [f64_eq_pack hn, f64IsFinite_pack hlt, f64Units_pack hlt, habs, hM, hv]
    refine ⟨by omega, ?_⟩
    have hdist : |(((if decide (n < 0) = true then -((q * 2 ^ E : Nat) : Int) else ((q * 2 ^ E : Nat) : Int)) : Int) : ℚ) -
        n * 2 ^ 1074 / d| = |(q * 2 ^ E : ℚ) - n.natAbs * 2 ^ 1074 / d| := by
      by_cases hneg : n < 0
      · have : (n : ℚ) = -(n.natAbs : ℚ) := by
          have : n = -(n.natAbs : Int) := by omega
          exact_mod_cast this
        simp only [hneg, decide_true, if_true]
        rw [this, ← abs_neg]; push_cast; congr 1; ring
      · have : (n : ℚ) = (n.natAbs : ℚ) := by
          have : n = (n.natAbs : Int) := by omega
          rw [this]; simp
        simp only [hneg, decide_false, Bool.false_eq_true, if_false]
        rw [this]; push_cast; rfl
    rw [hdist]
    refine h5.trans ?_
    rcases h3 with rfl | h3
    · exact le_max_of_le_right (by norm_num)
    · apply le_max_of_le_left
      rw [le_div_iff₀ (by positivity)]
      calc (2 : ℚ) ^ E / 2 * 2 ^ 53 = 2 ^ 52 * 2 ^ E := by ring
        _ ≤ _ := h3

/-- `f64` of an integer of at most 53 bits is exact. -/
theorem f64_int_exact {n : Int} (hb : n.natAbs < 2 ^ 53) : f64Units (f64 n 1) = n * 2 ^ 1074 := by
  by_cases hn : n = 0
  · subst hn
    rw [f64_zero, f64Zero, f64Units_pack (by norm_num)]
    simp [magUnits]
  · obtain ⟨E, q, hm, hv, h1, h2, h3, h4, h5, -⟩ := f64RoundMag_spec (n := n.natAbs) (d := 1) (by omega) (by omega)
    have hlt := f64RoundMag_lt n.natAbs 1
    have hE : E ≤ 1074 := by
      by_contra hE
      have h3 := h3.resolve_left (by omega)
      have hb : (n.natAbs : ℚ) < 2 ^ 53 := by exact_mod_cast hb
      have h6 : (n.natAbs : ℚ) * 2 ^ 1074 < 2 ^ 53 * 2 ^ 1074 := by gcongr
      have h7 : (2 : ℚ) ^ 53 * 2 ^ 1074 ≤ 2 ^ 52 * 2 ^ E := by
        rw [← pow_add, ← pow_add]; exact pow_le_pow_right₀ (by norm_num) (by omega)
      rw [Nat.cast_one, div_one] at h3
      exact absurd (h3.trans_lt (h6.trans_le h7)) (lt_irrefl _)
    have hM : f64RoundMag n.natAbs 1 = E * 2 ^ 52 + q := by rw [hm]; omega
    have hk : n.natAbs * 2 ^ 1074 = (n.natAbs * 2 ^ (1074 - E)) * 2 ^ E := by
      rw [mul_assoc, ← pow_add, Nat.sub_add_cancel hE]
    have hq : q = n.natAbs * 2 ^ (1074 - E) := by
      have hp : (0 : ℚ) < 2 ^ E := by positivity
      have hk' : (n.natAbs * 2 ^ 1074 : ℚ) = ((n.natAbs * 2 ^ (1074 - E) : Nat) : ℚ) * 2 ^ E := by exact_mod_cast hk
      rw [Nat.cast_one, div_one, hk', ← sub_mul, abs_mul, abs_of_pos hp] at h5
      generalize n.natAbs * 2 ^ (1074 - E) = k at h5 ⊢
      have h6 : |(q : ℚ) - k| ≤ 1 / 2 := by
        rw [div_eq_inv_mul] at h5
        have := le_of_mul_le_mul_right h5 hp
        linarith
      have h7 : |(q : Int) - k| < 1 := by
        have : |(q : ℚ) - k| < 1 := by linarith
        exact_mod_cast this
      have := Int.abs_lt_one_iff.mp h7
      omega
    rw [f64_eq_pack hn, f64Units_pack hlt, hM, hv, hq, ← hk]
    by_cases hneg : n < 0
    · simp only [hneg, decide_true, if_true]
      have : (n.natAbs : Int) = -n := by omega
      push_cast
      rw [← Int.natCast_natAbs, this]; ring
    · simp only [hneg, decide_false, Bool.false_eq_true, if_false]
      have : (n.natAbs : Int) = n := by omega
      push_cast
      rw [← Int.natCast_natAbs, this]

theorem f64_not_special {x : F64} (h : f64IsFinite x = true) : f64IsNaN x = false ∧ f64IsInf x = false := by
  unfold f64IsFinite at h
  unfold f64IsNaN f64IsInf
  simp_all

/-- The rounding error of `fadd` on finite values, in units of 2^-1074, where the sum stays below 2^900. -/
theorem fadd_error {x y : F64} (hx : f64IsFinite x = true) (hy : f64IsFinite y = true)
    (hb : (f64Units x + f64Units y).natAbs < 2 ^ 900 * f64One) :
    f64IsFinite (fadd x y) = true ∧
    |(f64Units (fadd x y) : ℚ) - (f64Units x + f64Units y)| ≤
      max (|(f64Units x + f64Units y : ℚ)| / 2 ^ 53) (1 / 2) := by
  unfold fadd
  simp only [(f64_not_special hx).1, (f64_not_special hx).2, (f64_not_special hy).1, (f64_not_special hy).2,
    Bool.or_false, Bool.false_eq_true, if_false]
  split
  · rename_i h
    rw [f64Zero, f64IsFinite_pack (by norm_num), f64Units_pack (by norm_num)]
    have h : (f64Units x + f64Units y : ℚ) = 0 := by exact_mod_cast h
    rw [h]
    simp [magUnits]
  · have := f64_error (n := f64Units x + f64Units y) (d := f64One) (by unfold f64One; positivity) hb
    have h : (((f64Units x + f64Units y : Int) : ℚ) * 2 ^ 1074 / (f64One : Nat)) = f64Units x + f64Units y := by
      unfold f64One; push_cast; field_simp
    rwa [h] at this

/-- The rounding error of `fdiv` on finite values, in units of 2^-1074, where the quotient stays below 2^900. -/
theorem fdiv_error {x y : F64} (hx : f64IsFinite x = true) (hy : f64IsFinite y = true) (hy0 : f64Mag y ≠ 0)
    (hb : f64Mag x < 2 ^ 900 * f64Mag y) :
    f64IsFinite (fdiv x y) = true ∧
    |(f64Units (fdiv x y) : ℚ) - f64Units x * 2 ^ 1074 / f64Units y| ≤
      max (|(f64Units x * 2 ^ 1074 / f64Units y : ℚ)| / 2 ^ 53) (1 / 2) := by
  have hpos : 0 < f64Mag y := by omega
  have hypos : (0 : ℚ) < f64Mag y := by exact_mod_cast hpos
  unfold fdiv
  simp only [(f64_not_special hx).1, (f64_not_special hx).2, (f64_not_special hy).1, (f64_not_special hy).2,
    Bool.or_false, Bool.false_eq_true, if_false, if_neg hy0]
  unfold f64Round
  split
  · rename_i h
    rw [f64Zero, f64IsFinite_pack (by norm_num), f64Units_pack (by norm_num)]
    have h : f64Units x = 0 := by simp [f64Units, h]
    rw [h]
    simp [magUnits]
  · rename_i h
    have hlt := f64RoundMag_lt (f64Mag x) (f64Mag y)
    set s : Int := if (f64Neg x != f64Neg y) = true then -(f64Mag x : Int) else (f64Mag x : Int) with hs
    have hsn : s.natAbs = f64Mag x := by rw [hs]; split <;> omega
    have hsq : (s * 2 ^ 1074 / f64Mag y : ℚ) = f64Units x * 2 ^ 1074 / f64Units y := by
      rw [hs]
      unfold f64Units
      cases f64Neg x <;> cases f64Neg y <;> simp [neg_div, div_neg]
    have hpk : f64Pack (f64Neg x != f64Neg y) (f64RoundMag (f64Mag x) (f64Mag y)) = f64 s (f64Mag y) := by
      rw [f64_eq_pack (Int.natAbs_ne_zero.mp (by rw [hsn]; exact h)), hsn]
      congr 1
      have : 0 < f64Mag x := Nat.pos_of_ne_zero h
      clear hb
      rw [hs]; split <;> simp_all
    rw [hpk, ← hsq]
    exact f64_error hpos (by rw [hsn]; exact hb)

end Sys2Proof.Machine
end

