-- ==== Sys2Proof/Laws/History.lean ====
section
/-! SUPPORT. The laws of a history read event by event (`Event.follow`). -/

namespace Sys2Proof.Machine

@[simp] theorem Event.follow_cmd (w : CmdWord) : Event.follow (some false) (.cmd w) = some true := rfl
@[simp] theorem Event.follow_txn (t : Txn) (a : Answer) : Event.follow (some true) (.txn t a) = some true := rfl
@[simp] theorem Event.follow_res (r : Result) : Event.follow (some true) (.res r) = some false := rfl
@[simp] theorem Event.follow_none (e : Event) : Event.follow none e = none := rfl

/-- A history that cannot be read so far cannot be read further. -/
theorem foldl_follow_none (es : List Event) : es.foldl Event.follow none = none := by
  induction es with
  | nil => rfl
  | cons e es ih => simpa using ih

/-- What reading one event can do. -/
theorem Event.follow_some {b c : Bool} {e : Event} (h : Event.follow (some b) e = some c) :
    (∃ w, e = .cmd w ∧ b = false ∧ c = true) ∨ (∃ t a, e = .txn t a ∧ b = true ∧ c = true) ∨
    ∃ r, e = .res r ∧ b = true ∧ c = false := by
  cases b <;> cases e <;> simp_all [Event.follow]

/-- A history that reads well has as many results as presented words, but for the one in progress. -/
theorem count_of_follow {es : List Event} {b c : Bool} (h : es.foldl Event.follow (some b) = some c) :
    es.countP Event.isCmd + b.toNat = es.countP Event.isRes + c.toNat := by
  induction es generalizing b with
  | nil => simp_all
  | cons e es ih =>
    rw [List.foldl_cons] at h
    cases hf : Event.follow (some b) e with
    | none => simp [hf, foldl_follow_none] at h
    | some d =>
      rw [hf] at h
      have := ih h
      rcases Event.follow_some hf with ⟨w, rfl, rfl, rfl⟩ | ⟨t, a, rfl, rfl, rfl⟩ | ⟨r, rfl, rfl, rfl⟩ <;>
        simp [List.countP_cons, Event.isCmd, Event.isRes] at this ⊢ <;> omega

/-- With the invariant, every presented word but the one in progress has its one result. -/
theorem Inv.count {s : State} (h : Inv s) : s.trace.countP Event.isCmd =
    s.trace.countP Event.isRes + (if s.seq = .idle then 0 else 1) := by
  have := count_of_follow h.results
  split <;> simp_all

end Sys2Proof.Machine
end

