-- ==== Sys2Proof/Laws/Memory.lean ====
section
/-! SUPPORT. The laws of the register space: read after write, a write leaves every other register alone, and every
operation keeps the canonical form. -/

namespace Sys2Proof.Machine

theorem Memory.lookup_write_same (m : Memory) (a : Nat) (v : Byte) : Memory.lookup (Memory.write m a v) a = some v := by
  induction m with
  | nil => simp [Memory.write, Memory.lookup]
  | cons c m ih =>
    obtain ⟨b, x⟩ := c
    simp only [Memory.write]
    split
    · simp [Memory.lookup]
    · split
      · simp [Memory.lookup]
      · rename_i h
        simp [Memory.lookup, Ne.symm h, ih]

theorem Memory.lookup_write_other (m : Memory) {a a' : Nat} (v : Byte) (h : a' ≠ a) :
    Memory.lookup (Memory.write m a v) a' = Memory.lookup m a' := by
  induction m with
  | nil => simp [Memory.write, Memory.lookup, h.symm]
  | cons c m ih =>
    obtain ⟨b, x⟩ := c
    simp only [Memory.write]
    split
    · simp [Memory.lookup, h.symm]
    · split
      · rename_i hb
        subst hb
        simp [Memory.lookup, h.symm]
      · simp [Memory.lookup, ih]

theorem Memory.write_wfAbove (m : Memory) {lo a : Nat} (v : Byte) (h : Memory.wfAbove lo m = true) (hlo : lo ≤ a)
    (ha : a < 2 ^ 15) : Memory.wfAbove lo (Memory.write m a v) = true := by
  induction m generalizing lo with
  | nil => simp [Memory.write, Memory.wfAbove]; omega
  | cons c m ih =>
    obtain ⟨b, x⟩ := c
    simp only [Memory.wfAbove, Bool.and_eq_true, decide_eq_true_eq] at h
    simp only [Memory.write]
    split
    · simp only [Memory.wfAbove, Bool.and_eq_true, decide_eq_true_eq]
      exact ⟨⟨hlo, ha⟩, ⟨by omega, h.1.2⟩, h.2⟩
    · split
      · subst_vars
        simp only [Memory.wfAbove, Bool.and_eq_true, decide_eq_true_eq]
        exact ⟨⟨hlo, ha⟩, h.2⟩
      · simp only [Memory.wfAbove, Bool.and_eq_true, decide_eq_true_eq]
        exact ⟨h.1, ih h.2 (by omega)⟩

/-- Every location is in the space. -/
theorem location_lt (d : DevAddr) (r : RegAddr) : location d r < 2 ^ 15 := by
  have := d.isLt; have := r.isLt; unfold location; omega

/-- Two registers have one location only if they are the same. -/
theorem location_inj {d d' : DevAddr} {r r' : RegAddr} : location d r = location d' r' ↔ d = d' ∧ r = r' := by
  refine ⟨fun h => ?_, fun h => by rw [h.1, h.2]⟩
  have := r.isLt; have := r'.isLt
  unfold location at h
  exact ⟨BitVec.eq_of_toNat_eq (by omega), BitVec.eq_of_toNat_eq (by omega)⟩

@[simp] theorem readReg_writeReg_same (m : Memory) (d : DevAddr) (r : RegAddr) (v : Byte) :
    readReg (writeReg m d r v) d r = v := by
  simp [readReg, writeReg, Memory.lookup_write_same]

theorem readReg_writeReg_other (m : Memory) {d d' : DevAddr} {r r' : RegAddr} (v : Byte) (h : ¬ (d = d' ∧ r = r')) :
    readReg (writeReg m d r v) d' r' = readReg m d' r' := by
  unfold readReg writeReg
  rw [Memory.lookup_write_other _ _ (fun e => h (location_inj.mp e.symm))]

theorem writeReg_wf {m : Memory} (d : DevAddr) (r : RegAddr) (v : Byte) (h : Memory.wf m = true) :
    Memory.wf (writeReg m d r v) = true :=
  Memory.write_wfAbove m v h (Nat.zero_le _) (location_lt d r)

@[simp] theorem applyActs_nil (m : Memory) : applyActs [] m = m := rfl

@[simp] theorem applyActs_cons (w : RegWrite) (acts : List RegWrite) (m : Memory) :
    applyActs (w :: acts) m = applyActs acts (writeReg m w.dev w.reg w.val) := rfl

theorem applyActs_wf (acts : List RegWrite) {m : Memory} (h : Memory.wf m = true) :
    Memory.wf (applyActs acts m) = true := by
  induction acts generalizing m with
  | nil => exact h
  | cons w acts ih => exact ih (writeReg_wf _ _ _ h)

/-- The environment's steps leave a register alone that none of them names. -/
theorem readReg_applyActs_quiet (acts : List RegWrite) (m : Memory) {d : DevAddr} {r : RegAddr}
    (h : ∀ w ∈ acts, ¬ (w.dev = d ∧ w.reg = r)) : readReg (applyActs acts m) d r = readReg m d r := by
  induction acts generalizing m with
  | nil => rfl
  | cons w acts ih =>
    rw [applyActs_cons, ih _ fun w' hw' => h w' (List.mem_cons_of_mem _ hw'),
      readReg_writeReg_other _ _ (h w (List.mem_cons_self ..))]

end Sys2Proof.Machine
end

