-- ==== Sys2Proof/Laws/State.lean ====
section
/-! SUPPORT. One lemma per field per update of the state, true by rfl. -/

namespace Sys2Proof.Machine

section Updates
variable (s : State) (e : Event) (q : SeqState) (m : Memory) (r : Result) (k : ErrKind) (v : Value) (w : CmdWord)

@[simp] theorem State.record_devAddr : (s.record e).devAddr = s.devAddr := rfl
@[simp] theorem State.record_seq : (s.record e).seq = s.seq := rfl
@[simp] theorem State.record_mem : (s.record e).mem = s.mem := rfl
@[simp] theorem State.record_trace : (s.record e).trace = s.trace ++ [e] := rfl
@[simp] theorem State.record_host : (s.record e).host = s.host := rfl
@[simp] theorem State.record_env : (s.record e).env = s.env := rfl
@[simp] theorem State.record_draws : (s.record e).draws = s.draws := rfl

@[simp] theorem State.withSeq_devAddr : (s.withSeq q).devAddr = s.devAddr := rfl
@[simp] theorem State.withSeq_seq : (s.withSeq q).seq = q := rfl
@[simp] theorem State.withSeq_mem : (s.withSeq q).mem = s.mem := rfl
@[simp] theorem State.withSeq_trace : (s.withSeq q).trace = s.trace := rfl
@[simp] theorem State.withSeq_host : (s.withSeq q).host = s.host := rfl
@[simp] theorem State.withSeq_env : (s.withSeq q).env = s.env := rfl
@[simp] theorem State.withSeq_draws : (s.withSeq q).draws = s.draws := rfl

@[simp] theorem State.withMem_devAddr : (s.withMem m).devAddr = s.devAddr := rfl
@[simp] theorem State.withMem_seq : (s.withMem m).seq = s.seq := rfl
@[simp] theorem State.withMem_mem : (s.withMem m).mem = m := rfl
@[simp] theorem State.withMem_trace : (s.withMem m).trace = s.trace := rfl
@[simp] theorem State.withMem_host : (s.withMem m).host = s.host := rfl
@[simp] theorem State.withMem_env : (s.withMem m).env = s.env := rfl
@[simp] theorem State.withMem_draws : (s.withMem m).draws = s.draws := rfl

@[simp] theorem State.withHost_devAddr (ws : List CmdWord) : (s.withHost ws).devAddr = s.devAddr := rfl
@[simp] theorem State.withHost_seq (ws : List CmdWord) : (s.withHost ws).seq = s.seq := rfl
@[simp] theorem State.withHost_mem (ws : List CmdWord) : (s.withHost ws).mem = s.mem := rfl
@[simp] theorem State.withHost_trace (ws : List CmdWord) : (s.withHost ws).trace = s.trace := rfl
@[simp] theorem State.withHost_host (ws : List CmdWord) : (s.withHost ws).host = ws := rfl
@[simp] theorem State.withHost_env (ws : List CmdWord) : (s.withHost ws).env = s.env := rfl
@[simp] theorem State.withHost_draws (ws : List CmdWord) : (s.withHost ws).draws = s.draws := rfl

@[simp] theorem State.finish_devAddr : (s.finish r).devAddr = s.devAddr := rfl
@[simp] theorem State.finish_seq : (s.finish r).seq = .idle := rfl
@[simp] theorem State.finish_mem : (s.finish r).mem = s.mem := rfl
@[simp] theorem State.finish_trace : (s.finish r).trace = s.trace ++ [.res r] := rfl
@[simp] theorem State.finish_host : (s.finish r).host = s.host := rfl
@[simp] theorem State.finish_env : (s.finish r).env = s.env := rfl
@[simp] theorem State.finish_draws : (s.finish r).draws = s.draws := rfl

@[simp] theorem State.raiseError_eq : s.raiseError k = s.finish (.err k) := rfl
@[simp] theorem State.returnValue_eq : s.returnValue v = s.finish (.ok v) := rfl
@[simp] theorem State.rejectWord_eq : s.rejectWord w = (s.record (.cmd w)).finish (.err .illegalCommand) := rfl

@[simp] theorem State.afterActs_devAddr : s.afterActs.devAddr = s.devAddr := by
  unfold State.afterActs; split <;> rfl
@[simp] theorem State.afterActs_seq : s.afterActs.seq = s.seq := by
  unfold State.afterActs; split <;> rfl
@[simp] theorem State.afterActs_trace : s.afterActs.trace = s.trace := by
  unfold State.afterActs; split <;> rfl
@[simp] theorem State.afterActs_host : s.afterActs.host = s.host := by
  unfold State.afterActs; split <;> rfl
theorem State.afterActs_mem : s.afterActs.mem = applyActs s.nextTurn.acts s.mem := by
  unfold State.afterActs State.nextTurn; split <;> rfl

end Updates

/-- A listed turn is the one taken. -/
theorem State.nextTurn_of_env {s : State} {t : Turn} {ts : List Turn} (h : s.env = t :: ts) : s.nextTurn = t := by
  simp [State.nextTurn, h]

/-- A listed turn's steps are taken and the turn is used up. -/
theorem State.afterActs_of_env {s : State} {t : Turn} {ts : List Turn} (h : s.env = t :: ts) :
    s.afterActs = { s with mem := applyActs t.acts s.mem, env := ts } := by
  simp [State.afterActs, h]

/-- The state after the environment's steps, whether its turn was listed or free. -/
theorem State.afterActs_eq (s : State) : s.afterActs =
    { s with
      mem := applyActs s.nextTurn.acts s.mem, env := s.env.tail,
      draws := if s.env = [] then s.draws + 1 else s.draws } := by
  unfold State.afterActs State.nextTurn
  split <;> simp_all

theorem State.turnAt_zero (s : State) : s.turnAt 0 = s.nextTurn := by
  unfold State.turnAt State.nextTurn
  split <;> simp_all

/-- The turns from a state on whose environment has taken one turn. -/
theorem State.turnAt_succ {s u : State} (he : u.env = s.env.tail)
    (hd : u.draws = if s.env = [] then s.draws + 1 else s.draws) (k : Nat) : u.turnAt k = s.turnAt (k + 1) := by
  unfold State.turnAt
  rw [he, hd]
  cases s.env with
  | nil => simp [Nat.add_assoc, Nat.add_comm 1 k]
  | cons t ts => simp

end Sys2Proof.Machine
end

