-- ==== Sys2Proof/Laws/Ops.lean ====
section
/-! SUPPORT. What each shared operation can do, said once: the pseudocodes, an answered transaction, and one step of a
command (the inversion lemma that the invariants and frames go through). -/

namespace Sys2Proof.Machine

/-- Every meaning is one step of its command's pseudocode. -/
theorem exec_eq_command (i : Instr) (s : State) : exec i s = s.command (encode i) (codeOf i s.devAddr) := by
  cases i <;> rfl

/-- A pseudocode raises only InvalidArgument, and only before its first transaction. -/
theorem codeOf_raise {i : Instr} {d : DevAddr} {k : Nat} {buf : List Byte} {e : ErrKind}
    (h : codeOf i d k buf = .raise e) :
    k = 0 ∧ buf = [] ∧ e = .invalidArgument ∧
      ((∃ a, i = .setRange a ∧ validRange a = false) ∨ ∃ a, i = .setFilter a ∧ validFilter a = false) := by
  cases i <;>
    simp only [codeOf, codeBegin, codeEnd, codeIsRunning, codeGetRange, codeSetRange, codeGetFilter, codeSetFilter,
      codeGetStatus, codeGetTemperature, codeGetAxes, codeGetAxisX, codeGetAxisY, codeGetAxisZ, codeAxesRead] at h <;>
    split at h <;> (try split at h) <;> simp_all

/-- A pseudocode issues only the codec's transactions (R43), to its own device. -/
theorem codeOf_txn {i : Instr} {d : DevAddr} {k : Nat} {buf : List Byte} {t : Txn} (h : codeOf i d k buf = .txn t) :
    codecTxn d t = true := by
  cases i <;>
    simp only [codeOf, codeBegin, codeEnd, codeIsRunning, codeGetRange, codeSetRange, codeGetFilter, codeSetFilter,
      codeGetStatus, codeGetTemperature, codeGetAxes, codeGetAxisX, codeGetAxisY, codeGetAxisZ, codeAxesRead] at h <;>
    split at h <;> (try split at h) <;> simp_all <;> subst h <;>
    simp [codecTxn, regPowerCtl, regRange, regFilter, regStatus, regTemp, regAxes]

/-- No pseudocode ends before its first transaction with a value. -/
theorem codeOf_start (i : Instr) (d : DevAddr) :
    (∃ t, codeOf i d 0 [] = .txn t) ∨ codeOf i d 0 [] = .raise .invalidArgument := by
  cases i <;>
    simp only [codeOf, codeBegin, codeEnd, codeIsRunning, codeGetRange, codeSetRange, codeGetFilter, codeSetFilter,
      codeGetStatus, codeGetTemperature, codeGetAxes, codeGetAxisX, codeGetAxisY, codeGetAxisZ, codeAxesRead] <;>
    (try split) <;> simp

/-- Where a pseudocode stands before a transaction: before its first, or before the write that follows a read. -/
theorem codeOf_txn_at {i : Instr} {d : DevAddr} {k : Nat} {buf : List Byte} {t : Txn} (h : codeOf i d k buf = .txn t) :
    (k = 0 ∧ buf = [] ∧ ∀ r v, t ≠ .wrB d r v) ∨
    (k = 1 ∧ maxTxns i = 2 ∧ ∃ p r v, buf = [p] ∧ t = .wrB d r v ∧ codeOf i d 2 [p] = .ret .unit ∧
      codeOf i d 0 [] ≠ .offPath ∧ ∀ t0, codeOf i d 0 [] = .txn t0 → t0 = .rdB d r) := by
  cases i <;>
    simp only [codeOf, codeBegin, codeEnd, codeIsRunning, codeGetRange, codeSetRange, codeGetFilter, codeSetFilter,
      codeGetStatus, codeGetTemperature, codeGetAxes, codeGetAxisX, codeGetAxisY, codeGetAxisZ, codeAxesRead] at h <;>
    split at h <;> (try split at h) <;> simp at h <;> subst h <;>
    simp [codeOf, codeBegin, codeEnd, codeSetRange, codeSetFilter, maxTxns] <;> split <;> simp_all

/-- The writes a pseudocode issues, and after which byte read. -/
theorem codeOf_write {i : Instr} {d d' : DevAddr} {k : Nat} {p : Byte} {r : RegAddr} {v : Byte}
    (h : codeOf i d k [p] = .txn (.wrB d' r v)) : d' = d ∧
      ((i = .beginCmd ∧ standby p = true ∧ r = regPowerCtl ∧ v = clearStandby p) ∨
       (i = .endCmd ∧ running p = true ∧ r = regPowerCtl ∧ v = setStandby p) ∨
       (∃ a, i = .setRange a ∧ r = regRange ∧ v = mergeRange p a) ∨
       (∃ a, i = .setFilter a ∧ r = regFilter ∧ v = mergeFilter p a)) := by
  rcases codeOf_txn_at h with ⟨-, h0, -⟩ | ⟨rfl, -⟩
  · simp at h0
  · cases i <;>
      simp [codeOf, codeBegin, codeEnd, codeIsRunning, codeGetRange, codeSetRange, codeGetFilter, codeSetFilter,
        codeGetStatus, codeGetTemperature, codeGetAxes, codeGetAxisX, codeGetAxisY, codeGetAxisZ, codeAxesRead,
        decodeAxes] at h <;>
      (try split at h) <;> simp_all

/-- A setter's pseudocode has a transaction first only for a legal operand. -/
theorem codeOf_setter_start {d : DevAddr} {a : Byte} {t : Txn} :
    (codeOf (.setRange a) d 0 [] = .txn t → validRange a = true) ∧
    (codeOf (.setFilter a) d 0 [] = .txn t → validFilter a = true) := by
  constructor <;> intro h <;> simp only [codeOf, codeSetRange, codeSetFilter] at h <;> split at h <;> simp_all

/-- A block of nine bytes has a decode. -/
theorem decodeAxes_of_length {bs : List Byte} (h : bs.length = 9) : ∃ lanes, decodeAxes bs = some lanes := by
  match bs, h with
  | [_, _, _, _, _, _, _, _, _], _ => exact ⟨_, rfl⟩

/-- An accepted answer takes a pseudocode to another of its points. -/
theorem codeOf_continues {i : Instr} {d : DevAddr} {k : Nat} {buf bs : List Byte} {t : Txn} {a : Answer}
    (h : codeOf i d k buf = .txn t) (ha : acceptedBytes t a = some bs) : codeOf i d (k + 1) (buf ++ bs) ≠ .offPath := by
  rcases codeOf_txn_at h with ⟨rfl, rfl, -⟩ | ⟨rfl, -, p, r, v, rfl, rfl, h2, -⟩
  · rcases t with ⟨d', r⟩ | ⟨d', r, v⟩ | ⟨d', r, n⟩
    · cases a <;> simp [acceptedBytes] at ha
      subst ha
      cases i <;>
        simp [codeOf, codeBegin, codeEnd, codeIsRunning, codeGetRange, codeSetRange, codeGetFilter, codeSetFilter,
          codeGetStatus, codeGetTemperature, codeGetAxes, codeGetAxisX, codeGetAxisY, codeGetAxisZ, codeAxesRead] at h ⊢ <;>
        split <;> simp
    · cases i <;>
        simp [codeOf, codeBegin, codeEnd, codeIsRunning, codeGetRange, codeSetRange, codeGetFilter, codeSetFilter,
          codeGetStatus, codeGetTemperature, codeGetAxes, codeGetAxisX, codeGetAxisY, codeGetAxisZ, codeAxesRead] at h <;>
        split at h <;> simp at h
    · cases a <;> simp [acceptedBytes] at ha
      obtain ⟨hl, rfl⟩ := ha
      cases i <;>
        simp [codeOf, codeBegin, codeEnd, codeIsRunning, codeGetRange, codeSetRange, codeGetFilter, codeSetFilter,
          codeGetStatus, codeGetTemperature, codeGetAxes, codeGetAxisX, codeGetAxisY, codeGetAxisZ, codeAxesRead] at h ⊢
      case setRange => split at h <;> simp at h
      case setFilter => split at h <;> simp at h
      case getTemperature =>
        match hl.trans h.2.2.symm with
        | h2 => obtain ⟨b0, b1, rfl⟩ := List.length_eq_two.mp h2; simp
      all_goals
        obtain ⟨lanes, hb⟩ := decodeAxes_of_length (hl.trans h.2.2.symm)
        simp [hb]
  · cases a <;> simp [acceptedBytes] at ha
    subst ha
    simp [h2]

/-- What going on from a point of a pseudocode can answer. -/
theorem State.proceed_next {s t : State} {code : Code} {cmd : CmdWord} {k : Nat} {buf : List Byte}
    (h : s.proceed code cmd k buf = .next t) :
    (∃ tx, code k buf = .txn tx ∧ t = s.withSeq (.busy cmd k buf)) ∨
    (∃ v, code k buf = .ret v ∧ t = s.finish (.ok v)) ∨
    (∃ e, code k buf = .raise e ∧ t = s.finish (.err e)) := by
  unfold State.proceed at h
  split at h <;> simp_all

/-- What a sequencer step can answer (R38). -/
theorem State.transact_next {s t : State} {code : Code} {cmd : CmdWord} {k : Nat} {buf : List Byte}
    (h : s.transact code cmd k buf = .next t) :
    ∃ tx, code k buf = .txn tx ∧
      ((answerTxn s.nextTurn.draw tx s.afterActs.mem = none ∧ t = s.afterActs) ∨
       ∃ a m, answerTxn s.nextTurn.draw tx s.afterActs.mem = some (a, m) ∧
        ((acceptedBytes tx a = none ∧
            t = ((s.afterActs.withMem m).record (.txn tx a)).finish (.err .transportError)) ∨
          ∃ bs, acceptedBytes tx a = some bs ∧
            ((s.afterActs.withMem m).record (.txn tx a)).proceed code cmd (k + 1) (buf ++ bs) = .next t)) := by
  unfold State.transact at h
  split at h
  · rename_i tx htx
    refine ⟨tx, htx, ?_⟩
    split at h
    · simp_all
    · rename_i a m ham
      refine .inr ⟨a, m, ham, ?_⟩
      unfold State.completeTxn at h
      split at h <;> simp_all
  all_goals simp at h

/-- A state after a served, failed or badly answered transaction, in the updates' normal form. -/
theorem answerTxn_wf {draw : Draw} {t : Txn} {m m' : Memory} {a : Answer} (h : answerTxn draw t m = some (a, m'))
    (hm : Memory.wf m = true) : Memory.wf m' = true := by
  cases draw <;> cases t <;> simp [answerTxn, serveTxn, failTxn, badLengthTxn] at h
  all_goals first
    | (obtain ⟨-, rfl⟩ := h; first | exact hm | exact writeReg_wf _ _ _ hm)
    | (split at h <;> simp at h <;> obtain ⟨-, rfl⟩ := h <;> exact hm)

/-- A transaction changes no register but the one it writes. -/
theorem answerTxn_other {draw : Draw} {t : Txn} {m m' : Memory} {a : Answer} {d : DevAddr} {r : RegAddr}
    (h : answerTxn draw t m = some (a, m')) (ht : ∀ v, t ≠ .wrB d r v) : readReg m' d r = readReg m d r := by
  cases draw <;> cases t <;> simp [answerTxn, serveTxn, failTxn, badLengthTxn] at h
  all_goals first
    | (obtain ⟨-, rfl⟩ := h
       first
        | rfl
        | (refine readReg_writeReg_other _ _ ?_
           rintro ⟨rfl, rfl⟩
           exact ht _ rfl))
    | (split at h <;> simp at h <;> obtain ⟨-, rfl⟩ := h <;> rfl)

/-- Everything one step of a command can do when it answers a next state. -/
inductive ExecStep (i : Instr) (s : State) : State → Prop where
  /-- Accepted, `Busy` before its first transaction (R36). -/
  | accepted (tx : Txn) (hs : s.seq = .idle) (hc : codeOf i s.devAddr 0 [] = .txn tx) :
      ExecStep i s ((s.record (.cmd (encode i))).withSeq (.busy (encode i) 0 []))
  /-- Ended at once for its operand (R36, R201). -/
  | rejected (hs : s.seq = .idle) (hc : codeOf i s.devAddr 0 [] = .raise .invalidArgument) :
      ExecStep i s ((s.record (.cmd (encode i))).finish (.err .invalidArgument))
  /-- Its transaction is not answered yet (I17). -/
  | waiting (cmd : CmdWord) (k : Nat) (buf : List Byte) (tx : Txn) (hs : s.seq = .busy cmd k buf)
      (hc : codeOf i s.devAddr k buf = .txn tx) (ha : answerTxn s.nextTurn.draw tx s.afterActs.mem = none) :
      ExecStep i s s.afterActs
  /-- Its transaction failed (R202, R57). -/
  | failed (cmd : CmdWord) (k : Nat) (buf : List Byte) (tx : Txn) (a : Answer) (m : Memory)
      (hs : s.seq = .busy cmd k buf) (hc : codeOf i s.devAddr k buf = .txn tx)
      (ha : answerTxn s.nextTurn.draw tx s.afterActs.mem = some (a, m)) (hb : acceptedBytes tx a = none) :
      ExecStep i s (((s.afterActs.withMem m).record (.txn tx a)).finish (.err .transportError))
  /-- Its transaction completed and another one follows (R38.4). -/
  | moved (cmd : CmdWord) (k : Nat) (buf : List Byte) (tx : Txn) (a : Answer) (m : Memory) (bs : List Byte) (tx' : Txn)
      (hs : s.seq = .busy cmd k buf) (hc : codeOf i s.devAddr k buf = .txn tx)
      (ha : answerTxn s.nextTurn.draw tx s.afterActs.mem = some (a, m)) (hb : acceptedBytes tx a = some bs)
      (hc' : codeOf i s.devAddr (k + 1) (buf ++ bs) = .txn tx') :
      ExecStep i s (((s.afterActs.withMem m).record (.txn tx a)).withSeq (.busy cmd (k + 1) (buf ++ bs)))
  /-- Its last transaction completed and it returned (R38.5). -/
  | returned (cmd : CmdWord) (k : Nat) (buf : List Byte) (tx : Txn) (a : Answer) (m : Memory) (bs : List Byte) (v : Value)
      (hs : s.seq = .busy cmd k buf) (hc : codeOf i s.devAddr k buf = .txn tx)
      (ha : answerTxn s.nextTurn.draw tx s.afterActs.mem = some (a, m)) (hb : acceptedBytes tx a = some bs)
      (hc' : codeOf i s.devAddr (k + 1) (buf ++ bs) = .ret v) :
      ExecStep i s (((s.afterActs.withMem m).record (.txn tx a)).finish (.ok v))

/-- The inversion lemma of `exec`. -/
theorem exec_next {i : Instr} {s t : State} (h : exec i s = .next t) : ExecStep i s t := by
  rw [exec_eq_command] at h
  unfold State.command at h
  split at h
  · rename_i hs
    rcases codeOf_start i s.devAddr with ⟨tx, hc⟩ | hc
    · simp only [State.proceed, hc, Host.Outcome.next.injEq] at h
      exact h ▸ .accepted tx hs hc
    · simp only [State.proceed, hc, Host.Outcome.next.injEq] at h
      exact h ▸ .rejected hs hc
  · rename_i cmd k buf hs
    obtain ⟨tx, hc, ⟨ha, rfl⟩ | ⟨a, m, ha, ⟨hb, rfl⟩ | ⟨bs, hb, hp⟩⟩⟩ := State.transact_next h
    · exact .waiting cmd k buf tx hs hc ha
    · exact .failed cmd k buf tx a m hs hc ha hb
    · rcases State.proceed_next hp with ⟨tx', hc', rfl⟩ | ⟨v, hc', rfl⟩ | ⟨e, hc', -⟩
      · exact .moved cmd k buf tx a m bs tx' hs hc ha hb hc'
      · exact .returned cmd k buf tx a m bs v hs hc ha hb hc'
      · exact absurd (codeOf_raise hc').1 (Nat.succ_ne_zero k)

/-- Everything a step of the machine can do when it answers a next state: an `Idle` codec waits for the host, rejects a
word, or takes a word that decodes; a `Busy` one goes on with its command. -/
theorem step_next {s t : State} (h : step s = .next t) :
    (s.seq = .idle ∧ s.host = [] ∧ t = s) ∨
    (∃ w ws, s.seq = .idle ∧ s.host = w :: ws ∧ (decode w).isCommand = false ∧
      t = State.rejectWord (s.withHost ws) w) ∨
    (∃ w ws i, s.seq = .idle ∧ s.host = w :: ws ∧ decode w = .command i ∧ ExecStep i (s.withHost ws) t) ∨
    (∃ cmd k buf i, s.seq = .busy cmd k buf ∧ decode cmd = .command i ∧ ExecStep i s t) := by
  unfold step at h
  split at h
  · rename_i hs
    split at h
    · simp_all
    · rename_i w ws hw
      split at h
      · rename_i i hd
        exact .inr (.inr (.inl ⟨w, ws, i, hs, hw, hd, exec_next h⟩))
      · rename_i hd
        simp only [Host.Outcome.next.injEq] at h
        exact .inr (.inl ⟨w, ws, hs, hw, by rw [hd]; rfl, h.symm⟩)
  · rename_i cmd k buf hs
    split at h
    · rename_i i hd
      exact .inr (.inr (.inr ⟨cmd, k, buf, i, hs, hd, exec_next h⟩))
    · simp at h

end Sys2Proof.Machine
end

