-- ==== Sys2Proof/Laws/Shapes.lean ====
section
/-! SUPPORT. How a command's pseudocode gives it the shapes of Safety.lean: one lemma per shape. -/

namespace Sys2Proof.Machine

/-- An `Idle` codec's step of a command is its pseudocode's first point, after the acceptance is recorded. -/
theorem exec_of_idle {i : Instr} {s : State} (h : s.seq = .idle) :
    exec i s = (s.record (.cmd (encode i))).proceed (codeOf i s.devAddr) (encode i) 0 [] := by
  rw [exec_eq_command]; simp [State.command, h]

/-- A `Busy` codec's step of a command is its next transaction. -/
theorem exec_of_busy {i : Instr} {s : State} {w : CmdWord} {k : Nat} {buf : List Byte} (h : s.seq = .busy w k buf) :
    exec i s = s.transact (codeOf i s.devAddr) w k buf := by
  rw [exec_eq_command]; simp [State.command, h]

theorem accepts_of_txn {i : Instr} (h : ∀ d, ∃ t, codeOf i d 0 [] = .txn t) : Accepts i (encode i) := by
  intro s hs
  obtain ⟨t, ht⟩ := h s.devAddr
  simp [exec_of_idle hs, State.proceed, ht, State.withSeq, State.record]

theorem rejectsArgument_of_raise {i : Instr} (h : ∀ d, codeOf i d 0 [] = .raise .invalidArgument) :
    RejectsArgument i (encode i) := by
  intro s hs
  simp [exec_of_idle hs, State.proceed, h, State.finish, State.withSeq, State.record, hs]

theorem readsByte_of_code {i : Instr} {reg : RegAddr} {q : CmdWord → Byte → SeqState} {es : Byte → List Event}
    (h0 : ∀ d, codeOf i d 0 [] = .txn (.rdB d reg))
    (h1 : ∀ d b, (∃ t, codeOf i d 1 [b] = .txn t ∧ es b = [] ∧ ∀ w, q w b = .busy w 1 [b]) ∨
      ∃ v, codeOf i d 1 [b] = .ret v ∧ es b = [.res (.ok v)] ∧ ∀ w, q w b = .idle) : ReadsByte i reg q es := by
  intro s w acts hs m b
  refine ⟨fun he => ?_, fun left he => ?_⟩
  · rw [exec_of_busy hs]
    rcases h1 s.devAddr b with ⟨t, ht, h2, h3⟩ | ⟨v, ht, h2, h3⟩ <;>
      simp [State.transact, h0, State.afterActs_eq, he, answerTxn, serveTxn,
        State.completeTxn, acceptedBytes, State.proceed, ht, h2, h3, State.afterTxn, State.withMem, State.record,
        State.withSeq, State.finish, b, m] at ht h2 h3 ⊢
  · simp [exec_of_busy hs, State.transact, h0, State.afterActs_eq, he, answerTxn, failTxn,
      State.completeTxn, acceptedBytes, State.afterTxn, State.withMem, State.record, State.withSeq, State.finish, m]

theorem writesByte_of_code {i : Instr} {p : Byte} {reg : RegAddr} {v : Byte}
    (h0 : ∀ d, codeOf i d 1 [p] = .txn (.wrB d reg v)) (h1 : ∀ d, codeOf i d 2 [p] = .ret .unit) :
    WritesByte i p reg v := by
  intro s w acts hs m
  refine ⟨fun he => ?_, fun left he => ?_⟩
  · simp [exec_of_busy hs, State.transact, h0, h1, State.afterActs_eq, he, answerTxn,
      serveTxn, State.completeTxn, acceptedBytes, State.proceed, State.afterTxn, State.withMem, State.record,
      State.withSeq, State.finish, m]
  · simp [exec_of_busy hs, State.transact, h0, State.afterActs_eq, he, answerTxn, failTxn,
      State.completeTxn, acceptedBytes, State.afterTxn, State.withMem, State.record, State.withSeq, State.finish, m]

theorem readsBlock_of_code {i : Instr} {start : RegAddr} {regs : List RegAddr} {value : (RegAddr → Byte) → Value}
    (h0 : ∀ d, codeOf i d 0 [] = .txn (.rdBlk d start regs.length))
    (hr : ∀ m d, readRegs m d start regs.length = regs.map (readReg m d))
    (h1 : ∀ d m, codeOf i d 1 (regs.map (readReg m d)) = .ret (value (readReg m d))) :
    ReadsBlock i start regs value := by
  intro s w acts hs m t
  refine ⟨fun he => ?_, fun left he => ?_, fun bs hb he => ?_⟩
  · simp [exec_of_busy hs, State.transact, h0, hr, h1, State.afterActs_eq, he, answerTxn,
      serveTxn, State.completeTxn, acceptedBytes, State.proceed, State.afterTxn, State.withMem, State.record,
      State.withSeq, State.finish, m, t]
  · simp [exec_of_busy hs, State.transact, h0, State.afterActs_eq, he, answerTxn, failTxn,
      State.completeTxn, acceptedBytes, State.afterTxn, State.withMem, State.record, State.withSeq, State.finish, m, t]
  · simp [exec_of_busy hs, State.transact, h0, hb, State.afterActs_eq, he, answerTxn,
      badLengthTxn, State.completeTxn, acceptedBytes, State.afterTxn, State.withMem, State.record, State.withSeq,
      State.finish, m, t]

end Sys2Proof.Machine
end

