-- ==== Sys2Proof/Laws/Runs.lean ====
section
/-! SUPPORT. Runs of the machine, one command phase at a time: a step taken off a run, and a command accepted and its
first transaction served by a turn that leaves the register alone. -/

namespace Sys2Proof.Machine

/-- A run goes on from the state its first step gives. -/
theorem run_succ {k : Nat} {s t : State} (h : step s = .next t) : core.run (k + 1) s = core.run k t := by
  have h : core.step s = .next t := h
  simp [Host.Core.run, h]

/-- An `Idle` codec's step runs the command the host presents. -/
theorem step_of_idle {s : State} {w : CmdWord} {ws : List CmdWord} {i : Instr} (hs : s.seq = .idle)
    (hh : s.host = w :: ws) (hd : decode w = .command i) : step s = exec i (s.withHost ws) := by
  simp [step, hs, hh, hd]

/-- A `Busy` codec's step runs the command in progress. -/
theorem step_of_busy {s : State} {cmd : CmdWord} {k : Nat} {buf : List Byte} {i : Instr}
    (hs : s.seq = .busy cmd k buf) (hd : decode cmd = .command i) : step s = exec i s := by
  simp [step, hs, hd]

/-- A clean turn serves. -/
theorem clean_eq {t : Turn} {d : DevAddr} {r : RegAddr} (h : t.clean d r) : t = ⟨t.acts, .serve⟩ := by
  obtain ⟨h, -⟩ := h
  cases t
  simp_all

/-- A clean turn leaves its register alone. -/
theorem readReg_of_clean {t : Turn} {d : DevAddr} {r : RegAddr} (m : Memory) (h : t.clean d r) :
    readReg (applyActs t.acts m) d r = readReg m d r :=
  readReg_applyActs_quiet _ _ h.2

/-- A command accepted, and its first read served by a clean turn. -/
theorem run_read {s : State} {i : Instr} {w : CmdWord} {ws : List CmdWord} {reg : RegAddr}
    {q : CmdWord → Byte → SeqState} {es : Byte → List Event} (hd : decode w = .command i) (ha : Accepts i w)
    (hr : ReadsByte i reg q es) (hs : s.seq = .idle) (hh : s.host = w :: ws) (hc : (s.turnAt 0).clean s.devAddr reg) :
    ∃ u : State, (∀ k, core.run (k + 2) s = core.run k u) ∧ u.devAddr = s.devAddr ∧ u.host = ws ∧
      (∀ k, u.turnAt k = s.turnAt (k + 1)) ∧ u.seq = q w (readReg s.mem s.devAddr reg) ∧
      u.mem = applyActs (s.turnAt 0).acts s.mem ∧
      u.trace = s.trace ++ .cmd w :: .txn (.rdB s.devAddr reg) (.byte (readReg s.mem s.devAddr reg)) ::
        es (readReg s.mem s.devAddr reg) := by
  rw [State.turnAt_zero] at hc ⊢
  have hn := clean_eq hc
  refine ⟨_, fun k => (run_succ ((step_of_idle hs hh hd).trans (ha (s.withHost ws) (by simpa using hs)))).trans
    (run_succ ((step_of_busy rfl hd).trans ((hr _ w s.nextTurn.acts rfl).1 hn))), rfl, rfl, ?_, ?_, rfl, ?_⟩
  · exact State.turnAt_succ rfl rfl
  · simp [State.afterTxn, State.withHost, readReg_of_clean _ hc]
  · simp [State.afterTxn, State.withHost, readReg_of_clean _ hc]

/-- The write of a command in progress, served. -/
theorem run_write {s : State} {i : Instr} {w : CmdWord} {p v : Byte} {reg : RegAddr} (hd : decode w = .command i)
    (hw : WritesByte i p reg v) (hs : s.seq = .busy w 1 [p]) (hc : (s.turnAt 0).clean s.devAddr reg) :
    ∃ u : State, (∀ k, core.run (k + 1) s = core.run k u) ∧ u.devAddr = s.devAddr ∧ u.host = s.host ∧
      (∀ k, u.turnAt k = s.turnAt (k + 1)) ∧ u.seq = .idle ∧ readReg u.mem s.devAddr reg = v ∧
      u.trace = s.trace ++ [.txn (.wrB s.devAddr reg v) .done, .res (.ok .unit)] := by
  rw [State.turnAt_zero] at hc
  refine ⟨_, fun k => run_succ ((step_of_busy hs hd).trans ((hw _ w s.nextTurn.acts hs).1 (clean_eq hc))), rfl, rfl,
    State.turnAt_succ rfl rfl, rfl, ?_, rfl⟩
  simp [State.afterTxn]

end Sys2Proof.Machine
end

