-- ==== Sys2Proof/Tests/Slice0.lean ====
section
/-! SUPPORT. The model's own tests and the witnesses of the obligations' hypotheses. Expected values come from
95_test_vectors.md (the row is named) or from the rule named; words are written out from R60 and R62. -/

namespace Sys2Proof.Tests

open Sys2Proof.Machine

/-! ## Helpers -/

/-- A state of the codec at 0x1D. -/
def st (seq : SeqState) (mem : Memory) (host : List CmdWord) (env : List Turn) : State :=
  { devAddr := 0x1D, seq := seq, mem := mem, trace := [], host := host, env := env, draws := 0 }

/-- The sensor's registers, the first at `r`. -/
def regs (r : Nat) (bs : List Byte) : Memory := bs.mapIdx fun i b => (0x1D00 + r + i, b)

/-- A turn that serves, with no step of its own: the reference environment of R49. -/
def serve : Turn := ⟨[], .serve⟩

/-- A turn that fails. -/
def failWith (left : Byte) : Turn := ⟨[], .fail left⟩

/-- The outcome is a next state that satisfies `p`. -/
def nextSat (o : Host.Outcome State Fault Refusal) (p : State → Bool) : Bool :=
  match o with
  | .next t => p t
  | .fault _ => false
  | .refused _ => false

theorem of_nextSat {o : Host.Outcome State Fault Refusal} {p : State → Bool} (h : nextSat o p = true) :
    ∃ t, o = .next t ∧ p t = true := by
  cases o <;> simp_all [nextSat]

/-- One step of `i` in a `Busy` state with word `w` after `buf`, on the registers `mem`, the turn being `t`. -/
def busyStep (i : Instr) (w : CmdWord) (buf : List Byte) (mem : Memory) (t : Turn) : Host.Outcome State Fault Refusal :=
  exec i (st (.busy w buf.length buf) mem [] [t])

/-- The step ends the command with `r` and leaves the registers `mem`. -/
def endsWith (o : Host.Outcome State Fault Refusal) (r : Result) (mem : Memory) : Bool :=
  nextSat o fun t => t.seq == .idle && t.trace.getLast? == some (.res r) && t.mem == mem

/-! ## Well-formedness (R61) -/

theorem test_wellFormed_operand : operandInRange 0 = true ∧ operandInRange 255 = true ∧ operandInRange (-1) = false ∧
    operandInRange 256 = false := by decide

theorem test_wellFormed_setRange : HostCall.wellFormed (.setRange (-1)) = false ∧
    HostCall.wellFormed (.setRange 256) = false ∧ HostCall.wellFormed (.setRange 255) = true := by decide

theorem test_wellFormed_setFilter : HostCall.wellFormed (.setLowpassFilter (-1)) = false ∧
    HostCall.wellFormed (.setLowpassFilter 256) = false ∧ HostCall.wellFormed (.setLowpassFilter 0) = true := by decide

theorem test_wellFormed_plain : HostCall.wellFormed (.plain (.setRange 1)) = false ∧
    HostCall.wellFormed (.plain (.setFilter 1)) = false ∧ HostCall.wellFormed (.plain .beginCmd) = true := by decide

theorem test_encodeCall_refuses : encodeCall (.setRange 256) = none ∧ encodeCall (.plain (.setFilter 1)) = none ∧
    encodeCall (.setRange 255) = some 0x11FF := by decide

/-! ## Decoding: one word of each constructor, written bit by bit from R60 and R62 -/

theorem test_decode_begin : decode 0b0000000100000000 = .command .beginCmd := by decide
theorem test_decode_end : decode 0b0000001000000000 = .command .endCmd := by decide
theorem test_decode_isRunning : decode 0b0000001100000000 = .command .isRunning := by decide
theorem test_decode_getRange : decode 0b0001000000000000 = .command .getRange := by decide
theorem test_decode_setRange : decode 0b0001000100000011 = .command (.setRange 3) := by decide
theorem test_decode_getFilter : decode 0b0010000000000000 = .command .getFilter := by decide
theorem test_decode_setFilter : decode 0b0010000100001010 = .command (.setFilter 10) := by decide
theorem test_decode_getStatus : decode 0b0011000000000000 = .command .getStatus := by decide
theorem test_decode_getTemperature : decode 0b0011000100000000 = .command .getTemperature := by decide
theorem test_decode_getAxes : decode 0b0100000000000000 = .command .getAxes := by decide
theorem test_decode_getAxisX : decode 0b0100000100000000 = .command .getAxisX := by decide
theorem test_decode_getAxisY : decode 0b0100001000000000 = .command .getAxisY := by decide
theorem test_decode_getAxisZ : decode 0b0100001100000000 = .command .getAxisZ := by decide

/-- L2-D: words that are no command. -/
theorem test_decode_illegal : decode 0x0101 = .illegal .argNotZero ∧ decode 0x10FF = .illegal .argNotZero ∧
    decode 0x0000 = .illegal .unassignedOp ∧ decode 0x1200 = .illegal .unassignedOp ∧
    decode 0xFFFF = .illegal .unassignedOp := by decide

theorem test_decodeTableWord : decodeTableWord 16 0x210A = some (.setFilter 10) ∧ decodeTableWord 16 0x0101 = none ∧
    decodeTableWord 8 0x01 = none := by decide

/-- withFetchWord makes the next step run the word (log 4). -/
theorem test_withFetchWord : nextSat (step (State.reset.withFetchWord 16 0x1103))
    (fun t => t.seq == .busy 0x1103 0 [] && t.trace == [.cmd 0x1103]) = true := by decide +kernel

/-! ## Power (L2-P) -/

/-- p = 0x07: BEGIN's read goes on to the write. -/
theorem test_begin_read : nextSat (busyStep .beginCmd 0x0100 [] (regs 0x2D [0x07]) serve)
    (fun t => t.seq == .busy 0x0100 1 [0x07] && t.trace == [.txn (.rdB 0x1D 0x2D) (.byte 0x07)]) = true := by
  decide +kernel

/-- p = 0x07: BEGIN writes 0x06. -/
theorem test_begin_write : endsWith (busyStep .beginCmd 0x0100 [0x07] (regs 0x2D [0x07]) serve) (.ok .unit)
    (regs 0x2D [0x06]) = true := by decide +kernel

/-- p = 0x07: END reads and writes nothing. -/
theorem test_end_read : endsWith (busyStep .endCmd 0x0200 [] (regs 0x2D [0x07]) serve) (.ok .unit)
    (regs 0x2D [0x07]) = true := by decide +kernel

/-- p = 0xFE: END writes 0xFF. -/
theorem test_end_write : endsWith (busyStep .endCmd 0x0200 [0xFE] (regs 0x2D [0xFE]) serve) (.ok .unit)
    (regs 0x2D [0xFF]) = true := by decide +kernel

theorem test_isRunning_false : endsWith (busyStep .isRunning 0x0300 [] (regs 0x2D [0x07]) serve) (.ok (.bool false))
    (regs 0x2D [0x07]) = true := by decide +kernel

theorem test_isRunning_true : endsWith (busyStep .isRunning 0x0300 [] (regs 0x2D [0xFE]) serve) (.ok (.bool true))
    (regs 0x2D [0xFE]) = true := by decide +kernel

/-! ## Range (L2-R) -/

theorem test_setRange_write : endsWith (busyStep (.setRange 2) 0x1102 [0x81] (regs 0x2C [0x81]) serve) (.ok .unit)
    (regs 0x2C [0x82]) = true := by decide +kernel

theorem test_setRange_rejects : endsWith (exec (.setRange 0) (st .idle (regs 0x2C [0x83]) [] [failWith 0]))
    (.err .invalidArgument) (regs 0x2C [0x83]) = true := by decide +kernel

theorem test_getRange : endsWith (busyStep .getRange 0x1000 [] (regs 0x2C [0x82]) serve) (.ok (.rangeCode 2))
    (regs 0x2C [0x82]) = true := by decide +kernel

theorem test_getRange_reserved : endsWith (busyStep .getRange 0x1000 [] (regs 0x2C [0xFC]) serve) (.ok (.rangeCode 0))
    (regs 0x2C [0xFC]) = true := by decide +kernel

/-! ## Filter (L2-F) -/

theorem test_setFilter_write : endsWith (busyStep (.setFilter 10) 0x210A [0x35] (regs 0x28 [0x35]) serve) (.ok .unit)
    (regs 0x28 [0x3A]) = true := by decide +kernel

theorem test_setFilter_rejects : endsWith (exec (.setFilter 11) (st .idle (regs 0x28 [0xAF]) [] []))
    (.err .invalidArgument) (regs 0x28 [0xAF]) = true := by decide +kernel

theorem test_getFilter : endsWith (busyStep .getFilter 0x2000 [] (regs 0x28 [0x35]) serve) (.ok (.filterCode 5))
    (regs 0x28 [0x35]) = true := by decide +kernel

theorem test_getFilter_reserved : endsWith (busyStep .getFilter 0x2000 [] (regs 0x28 [0x0B]) serve)
    (.ok (.filterCode 11)) (regs 0x28 [0x0B]) = true := by decide +kernel

theorem test_filterLabel : filterLabel 9 = some "7.813" ∧ filterLabel 10 = some "3.906" ∧ filterLabel 11 = none := by
  decide +kernel

/-- R140: the exact frequencies. -/
theorem test_filterFrequency : filterFrequency 0 = some (4000, 1) ∧ filterFrequency 10 = some (4000, 1024) ∧
    filterFrequency 15 = none ∧ rangeName 0 = .reserved ∧ rangeName 3 = .g8 := by decide +kernel

/-! ## Status, temperature (L2-S, L2-T) -/

theorem test_getStatus_false : endsWith (busyStep .getStatus 0x3000 [] (regs 0x04 [0xFE]) serve) (.ok (.bool false))
    (regs 0x04 [0xFE]) = true := by decide +kernel

theorem test_getStatus_true : endsWith (busyStep .getStatus 0x3000 [] (regs 0x04 [0x11]) serve) (.ok (.bool true))
    (regs 0x04 [0x11]) = true := by decide +kernel

theorem test_getTemperature : endsWith (busyStep .getTemperature 0x3100 [] (regs 0x06 [0x07, 0x4E]) serve)
    (.ok (.f64 0x40313896B6F65364)) (regs 0x06 [0x07, 0x4E]) = true := by decide +kernel

/-- A block answer of one byte (R57). -/
theorem test_getTemperature_badLength : endsWith
    (busyStep .getTemperature 0x3100 [] (regs 0x06 [0x07, 0x4E]) ⟨[], .badLength [0x07]⟩)
    (.err .transportError) (regs 0x06 [0x07, 0x4E]) = true := by decide +kernel

/-- L2-T, all twelve rows. -/
theorem test_temperature_low : tempCelsius 0 = 0x406BFB3A710938BE ∧ tempCelsius 1 = 0x406BF7B13F8883B4 ∧
    tempCelsius 1000 = 0x405C56A2248C1424 ∧ tempCelsius 1680 = 0x40431B9651949F16 ∧
    tempCelsius 1851 = 0x4033520C1B61D145 ∧ tempCelsius 1852 = 0x403335C28F5C28F6 := by decide +kernel

theorem test_temperature_high : tempCelsius 1853 = 0x40331979035680A7 ∧ tempCelsius 1870 = 0x40313896B6F65364 ∧
    tempCelsius 2000 = 0x4006D9ECE0B6D960 ∧ tempCelsius 4095 = 0xC06C945468C6B09F ∧
    tempCelsius 32768 = 0xC0AA89D85E97BBA8 ∧ tempCelsius 65535 = 0xC0BB6995E893FFC5 := by decide +kernel

/-- IEEE 754: a tie goes to even, a subnormal, and an overflow to infinity. -/
theorem test_f64_rounding : f64 (2 ^ 53 + 1) 1 = 0x4340000000000000 ∧ f64 (2 ^ 53 + 3) 1 = 0x4340000000000002 ∧
    f64 1 (2 ^ 1074) = 0x0000000000000001 ∧ f64 (-1) (2 ^ 1075) = 0x8000000000000000 ∧
    f64 (2 ^ 1024) 1 = 0x7FF0000000000000 := by decide +kernel

/-! ## Axes (L2-A) -/

theorem test_decodeAxis : decodeAxis 0x00 0x00 0x0F = 0 ∧ decodeAxis 0x00 0x00 0x10 = 1 ∧
    decodeAxis 0x12 0x34 0x56 = 74565 ∧ decodeAxis 0x7F 0xFF 0xEF = 524286 ∧ decodeAxis 0x80 0x00 0x00 = -524288 ∧
    decodeAxis 0xAB 0xCD 0xEF = -344866 ∧ decodeAxis 0xFF 0xFF 0xFF = -1 := by decide +kernel

/-- The bytes of the lane test. -/
def lanes : Memory := regs 0x08 [0x00, 0x01, 0x00, 0xFF, 0xFF, 0xF0, 0x80, 0x00, 0x0F]

theorem test_getAxes : endsWith (busyStep .getAxes 0x4000 [] lanes serve) (.ok (.axes 16 (-1) (-524288))) lanes = true := by
  decide +kernel

theorem test_getAxes_badLength : endsWith
    (busyStep .getAxes 0x4000 [] lanes ⟨[], .badLength [0x00, 0x01, 0x00, 0xFF, 0xFF, 0xF0, 0x80, 0x00]⟩)
    (.err .transportError) lanes = true := by decide +kernel

theorem test_getAxisX : endsWith (busyStep .getAxisX 0x4100 [] lanes serve) (.ok (.int20 16)) lanes = true := by
  decide +kernel
theorem test_getAxisY : endsWith (busyStep .getAxisY 0x4200 [] lanes serve) (.ok (.int20 (-1))) lanes = true := by
  decide +kernel
theorem test_getAxisZ : endsWith (busyStep .getAxisZ 0x4300 [] lanes serve) (.ok (.int20 (-524288))) lanes = true := by
  decide +kernel

/-! ## Errors (L2-E) and the environment -/

theorem test_illegal_word : nextSat (step (st .idle [] [0x0101] [failWith 0]))
    (fun t => t.trace == [.cmd 0x0101, .res (.err .illegalCommand)] && t.seq == .idle && t.host == []) = true := by
  decide +kernel

/-- SET_RANGE 3, read fails: no write. -/
theorem test_read_fails : endsWith (busyStep (.setRange 3) 0x1103 [] (regs 0x2C [0x81]) (failWith 0xFF))
    (.err .transportError) (regs 0x2C [0x81]) = true := by decide +kernel

/-- SET_RANGE 3, write fails: RANGE is any byte, here 0x5A (R56). -/
theorem test_write_fails : endsWith (busyStep (.setRange 3) 0x1103 [0x81] (regs 0x2C [0x81]) (failWith 0x5A))
    (.err .transportError) (regs 0x2C [0x5A]) = true := by decide +kernel

/-- P5: another agent's write before the codec's write is lost. -/
theorem test_race : endsWith (busyStep (.setRange 3) 0x1103 [0x81] (regs 0x2C [0x81])
    ⟨[⟨0x1D, 0x2C, 0xC1⟩], .serve⟩) (.ok .unit) (regs 0x2C [0x83]) = true := by decide +kernel

/-- No answer yet: the command stays where it is (I17). -/
theorem test_wait : nextSat (busyStep .getRange 0x1000 [] (regs 0x2C [0x81]) ⟨[], .wait⟩)
    (fun t => t.seq == .busy 0x1000 0 [] && t.trace == [] && t.env == []) = true := by decide +kernel

/-- R51, R200: a history reads well only if every word's result comes before the next word, once. -/
theorem test_history :
    [Event.cmd 0x0100, .res (.ok .unit), .cmd 0x0101].foldl Event.follow (some false) = some true ∧
    [Event.cmd 0x0100, .cmd 0x0101, .res (.ok .unit)].foldl Event.follow (some false) = none ∧
    [Event.cmd 0x0100, .res (.ok .unit), .res (.ok .unit)].foldl Event.follow (some false) = none := by decide

/-! ## Memory -/

theorem test_memory_order : Memory.write (Memory.write (Memory.write [] 5 1) 3 2) 5 7 = [(3, 2), (5, 7)] := by decide

theorem test_memory_wf : Memory.wf [(3, 2), (5, 7)] = true ∧ Memory.wf [(5, 7), (3, 2)] = false ∧
    Memory.wf [(3, 1), (3, 2)] = false ∧ Memory.wf [(32768, 0)] = false ∧ Memory.wf State.reset.mem = true := by decide

/-! ## The assembler (R66, R67) -/

theorem test_assemble : assembleLine "BEGIN" = .word 0x0100 ∧ assembleLine "getAxisZ()" = .word 0x4300 ∧
    assembleLine "SET_FILTER 0x0A" = .word 0x210A ∧ assembleLine "SET_RANGE 0b10" = .word 0x1102 ∧
    assembleLine "setRange(3)" = .word 0x1103 := by decide +kernel

theorem test_assemble_refuses : assembleLine "NOP" = .refused .unknownMnemonic ∧
    assembleLine "BEGIN 1" = .refused .operandNotTaken ∧ assembleLine "SET_RANGE" = .refused .operandMissing ∧
    assembleLine "SET_RANGE 256" = .refused .operandOutOfRange ∧
    assembleLine "SET_RANGE LPF_125" = .refused .operandMalformed := by decide +kernel

/-! ## Witnesses: the hypotheses of every obligation can be met, each clause at the ends of its range

One witness may serve several obligations that share their hypotheses; its docstring names them. -/

/-- DecodeAndEncodeAgree, AcceptingACommand, StepRunsTheDecodedCommand. -/
theorem witness_decode_command : decode 0x0100 = .command .beginCmd ∧ decode 0x21FF = .command (.setFilter 255) := by
  decide

/-- DecodeFollowsTheOpcodeMap: a pair of the list with the least and the greatest ARG it excludes, and OP values outside. -/
theorem witness_opcode_map :
    ((0x01 : Byte), Instr.beginCmd) ∈ [((0x01 : Byte), Instr.beginCmd)] ∧ (0x01 : Byte) ≠ 0x00 ∧ (0xFF : Byte) ≠ 0x00 ∧
    [(0x00 : Byte), 0x04, 0x0F, 0x12, 0x22, 0x32, 0x44, 0xFF].all (fun op =>
      !([0x01, 0x02, 0x03, 0x10, 0x11, 0x20, 0x21, 0x30, 0x31, 0x40, 0x41, 0x42, 0x43] : List Byte).contains op) = true := by
  decide

/-- OperandIsTheArgByte. -/
theorem witness_operand : ((0 : Int) ≤ 0 ∧ (0 : Int) ≤ 255) ∧ ((0 : Int) ≤ 255 ∧ (255 : Int) ≤ 255) ∧
    ((-1 : Int) < 0 ∨ (255 : Int) < -1) ∧ ((256 : Int) < 0 ∨ (255 : Int) < 256) ∧
    decode 0x1000 = .command .getRange ∧ Instr.getRange.takesOperand = false ∧ (decode 0x1000).isCommand = true := by
  decide

/-- AssembledWordsAreCommands. -/
theorem witness_assembled : assembleLine "SET_FILTER 10" = .word 0x210A := by decide +kernel

/-- StepRunsTheDecodedCommand: all four clauses. -/
theorem witness_step :
    (∃ (s : State) (w : CmdWord) (ws : List CmdWord) (i : Instr), s.seq = .idle ∧ s.host = w :: ws ∧ decode w = .command i) ∧
    (∃ (s : State) (cmd : CmdWord) (k : Nat) (buf : List Byte) (i : Instr), s.seq = .busy cmd k buf ∧ decode cmd = .command i) ∧
    decodeTableWord 16 0x0100 = some .beginCmd ∧ ∃ s : State, s.seq = .idle ∧ s.host = [] :=
  ⟨⟨st .idle [] [0x0100] [], 0x0100, [], .beginCmd, rfl, rfl, by decide⟩,
    ⟨st (.busy 0x0100 1 [0x07]) [] [] [], 0x0100, 1, [0x07], .beginCmd, rfl, by decide⟩, by decide, State.reset, rfl, rfl⟩

/-- AcceptingACommand, IllegalWordGivesIllegalCommand: the words at the ends of each clause. -/
theorem witness_acceptance : (decode 0x0101).isCommand = false ∧ (decode 0xFFFF).isCommand = false ∧
    decode 0x1100 = .command (.setRange 0) ∧ (0 : Byte) ∉ ([1, 2, 3] : List Byte) ∧
    decode 0x1104 = .command (.setRange 4) ∧ (4 : Byte) ∉ ([1, 2, 3] : List Byte) ∧
    decode 0x210B = .command (.setFilter 11) ∧ 10 < (11 : Byte).toNat ∧
    decode 0x21FF = .command (.setFilter 255) ∧ 10 < (255 : Byte).toNat ∧
    decode 0x1101 = .command (.setRange 1) ∧ (1 : Byte) ∈ ([1, 2, 3] : List Byte) ∧
    decode 0x1103 = .command (.setRange 3) ∧ (3 : Byte) ∈ ([1, 2, 3] : List Byte) ∧
    decode 0x2100 = .command (.setFilter 0) ∧ (0 : Byte).toNat ≤ 10 ∧
    decode 0x210A = .command (.setFilter 10) ∧ (10 : Byte).toNat ≤ 10 := by decide

/-- AcceptingACommand: the whole state, with a `Busy` codec that takes no word. -/
theorem witness_acceptance_state : (∃ s : State, s.seq = .idle ∧ s.host = 0x1100 :: []) ∧
    ∃ (s t : State), s.seq = .busy 0x1000 0 [] ∧ s.host = [0x0100] ∧ step s = .next t := by
  refine ⟨⟨st .idle [] [0x1100] [], rfl, rfl⟩, ?_⟩
  obtain ⟨t, h, -⟩ := of_nextSat (o := step (st (.busy 0x1000 0 []) (regs 0x2C [0x81]) [0x0100] [serve]))
    (p := fun _ => true) (by decide +kernel)
  exact ⟨_, t, rfl, rfl, h⟩

/-- ErrorsAreCheckedBeforeTheBus: an operand error reported by a step, at the ends of both setters' domains; its other clauses
are met by witness_acceptance and witness_illegal_step. -/
theorem witness_argument_step : ∀ w ∈ [(0x1100 : CmdWord), 0x1104, 0x210B, 0x21FF], ∃ s t : State, s.seq = .idle ∧
    s.host = w :: [] ∧ step s = .next t ∧ .res (.err .invalidArgument) ∈ t.newEvents s := by
  intro w hw
  obtain ⟨t, h, hp⟩ := of_nextSat (o := step (st .idle [] [w] []))
    (p := fun t => decide (.res (.err .invalidArgument) ∈ t.newEvents (st .idle [] [w] [])))
    (by simp only [List.mem_cons, List.not_mem_nil, or_false] at hw
        rcases hw with rfl | rfl | rfl | rfl <;> decide +kernel)
  exact ⟨_, t, rfl, rfl, h, of_decide_eq_true hp⟩

/-- IllegalWordGivesIllegalCommand, last clause; ErrorsAreCheckedBeforeTheBus; DeviceAddressIsImmutable. -/
theorem witness_illegal_step : ∃ s t : State, s.seq = .idle ∧ step s = .next t ∧
    .res (.err .illegalCommand) ∈ t.newEvents s := by
  obtain ⟨t, h, hp⟩ := of_nextSat (o := step (st .idle [] [0x0101] []))
    (p := fun t => decide (.res (.err .illegalCommand) ∈ t.newEvents (st .idle [] [0x0101] []))) (by decide +kernel)
  exact ⟨_, t, rfl, h, of_decide_eq_true hp⟩

/-- `Accepts`, `RejectsArgument`: an `Idle` state (every obligation named after a command). -/
theorem witness_idle : ∃ s : State, s.seq = .idle := ⟨State.reset, rfl⟩

/-- `ReadsByte`, `ReadsBlock`: a command before its first transaction, served, failed, or answered with one byte too few or too
many (both block lengths). -/
theorem witness_first_transaction :
    (∃ s : State, s.seq = .busy 0x0300 0 [] ∧ s.nextTurn = ⟨[], .serve⟩) ∧
    (∃ s : State, s.seq = .busy 0x1000 0 [] ∧ s.nextTurn = ⟨[], .fail 0xFF⟩) ∧
    (∃ s : State, s.seq = .busy 0x3100 0 [] ∧ s.nextTurn = ⟨[], .badLength [0x07]⟩ ∧ [(0x07 : Byte)].length ≠ 2) ∧
    ∃ s : State, s.seq = .busy 0x4000 0 [] ∧ s.nextTurn = ⟨[], .badLength (List.replicate 10 0x00)⟩ ∧
      (List.replicate 10 (0x00 : Byte)).length ≠ 9 :=
  ⟨⟨st (.busy 0x0300 0 []) [] [] [serve], rfl, rfl⟩, ⟨st (.busy 0x1000 0 []) [] [] [failWith 0xFF], rfl, rfl⟩,
    ⟨st (.busy 0x3100 0 []) [] [] [⟨[], .badLength [0x07]⟩], rfl, rfl, by decide⟩,
    ⟨st (.busy 0x4000 0 []) [] [] [⟨[], .badLength (List.replicate 10 0x00)⟩], rfl, rfl, by decide⟩⟩

/-- `WritesByte`: a command after its read, served and failed, with a byte that BEGIN, and one that END, writes. -/
theorem witness_second_transaction :
    (∃ s : State, s.seq = .busy 0x0100 1 [0x07] ∧ s.nextTurn = ⟨[], .serve⟩ ∧ (0x07 : Byte).getLsbD 0 = true) ∧
    ∃ s : State, s.seq = .busy 0x0200 1 [0xFE] ∧ s.nextTurn = ⟨[], .fail 0x00⟩ ∧ (0xFE : Byte).getLsbD 0 = false :=
  ⟨⟨st (.busy 0x0100 1 [0x07]) [] [] [serve], rfl, rfl, by decide⟩,
    ⟨st (.busy 0x0200 1 [0xFE]) [] [] [failWith 0x00], rfl, rfl, by decide⟩⟩

/-- StandbyFieldCodec, RangeFieldCodec, FilterFieldCodec, FilterLabelTable, AxisDecodeIsSignExtension,
TemperatureStrictlyDecreases: the ends of each range. -/
theorem witness_ranges : (1 ≤ 1 ∧ 1 ≤ 7) ∧ (1 ≤ (1 : Byte).toNat ∧ (1 : Byte).toNat ≤ 3) ∧
    (1 ≤ (3 : Byte).toNat ∧ (3 : Byte).toNat ≤ 3) ∧ ((0 : Byte).toNat ≤ 10 ∧ (10 : Byte).toNat ≤ 10) ∧
    ((0 : BitVec 4).toNat ≤ 10 ∧ (10 : BitVec 4).toNat ≤ 10) ∧ (11 ≤ (11 : BitVec 4).toNat ∧ 11 ≤ (15 : BitVec 4).toNat) ∧
    ((0xF0 : Byte).extractLsb' 4 4 = (0xFF : Byte).extractLsb' 4 4) ∧
    ((-524288 : Int) ≤ -524288 ∧ (-524288 : Int) ≤ 524287) ∧ ((-524288 : Int) ≤ 524287 ∧ (524287 : Int) ≤ 524287) ∧
    ((0 : BitVec 16).toNat < 65535 ∧ (65534 : BitVec 16).toNat < 65535) := by decide

/-- SecondBeginOrEndWritesNothing, PowerCommandsSetTheState: three clean turns, the second with another agent's step
elsewhere, and each pair of words. -/
theorem witness_power_runs :
    ∀ ws ∈ [[(0x0100 : CmdWord), 0x0100], [0x0200, 0x0200], [0x0100, 0x0300], [0x0200, 0x0300]],
      ∃ s : State, s.seq = .idle ∧ s.host = ws ∧ ∀ k < 3, (s.turnAt k).clean s.devAddr 0x2D := by
  intro ws _
  refine ⟨st .idle (regs 0x2D [0x07]) ws [serve, ⟨[⟨0x1D, 0x2C, 0x00⟩], .serve⟩, serve], rfl, rfl, ?_⟩
  intro k hk
  match k, hk with
  | 0, _ | 1, _ | 2, _ => simp [Turn.clean, Turn.quiet, serve, State.turnAt, st]

/-- RangeRoundTrip, FilterRoundTrip: the same, with the operands at the ends of their ranges. -/
theorem witness_round_trips :
    (∀ a ∈ ([1, 3] : List Byte), a ∈ ([1, 2, 3] : List Byte) ∧ ∃ s : State, s.seq = .idle ∧
      (∀ k < 3, (s.turnAt k).clean s.devAddr 0x2C) ∧ s.host = ((0x11 : Byte) ++ a) :: 0x1000 :: []) ∧
    (∀ a ∈ ([0, 10] : List Byte), a.toNat ≤ 10 ∧ ∃ s : State, s.seq = .idle ∧
      (∀ k < 3, (s.turnAt k).clean s.devAddr 0x28) ∧ s.host = ((0x21 : Byte) ++ a) :: 0x2000 :: []) := by
  refine ⟨fun a ha => ⟨by revert a; decide, ?_⟩, fun a ha => ⟨by revert a; decide, ?_⟩⟩
  · refine ⟨st .idle [] [(0x11 : Byte) ++ a, 0x1000] [serve, ⟨[⟨0x1D, 0x2D, 0x00⟩], .serve⟩, serve], rfl, ?_, rfl⟩
    intro k hk
    match k, hk with
    | 0, _ | 1, _ | 2, _ => simp [Turn.clean, Turn.quiet, serve, State.turnAt, st]
  · refine ⟨st .idle [] [(0x21 : Byte) ++ a, 0x2000] [serve, ⟨[⟨0x1D, 0x2D, 0x00⟩], .serve⟩, serve], rfl, ?_, rfl⟩
    intro k hk
    match k, hk with
    | 0, _ | 1, _ | 2, _ => simp [Turn.clean, Turn.quiet, serve, State.turnAt, st]

/-- F64IsNearestEven: a rational between two values, and a tie (2^53 + 1 lies half way between 2^53 and 2^53 + 2). -/
theorem witness_nearest : (0 < 100 ∧ f64IsFinite (f64 905 100) = true ∧ f64IsFinite 0x402219999999999B = true) ∧
    (f64IsFinite (f64 (2 ^ 53 + 1) 1) = true ∧ f64IsFinite 0x4340000000000001 = true ∧
      f64Units 0x4340000000000001 ≠ f64Units (f64 (2 ^ 53 + 1) 1) ∧
      (f64Units (f64 (2 ^ 53 + 1) 1) * 1 - (2 ^ 53 + 1) * 2 ^ 1074).natAbs =
        (f64Units 0x4340000000000001 * 1 - (2 ^ 53 + 1) * 2 ^ 1074).natAbs) := by decide +kernel

/-- InvalidArgumentOnlyFromSetters: both setters, their operands at the ends. -/
theorem witness_invalidArgument : ∀ i ∈ [Instr.setRange 0, .setRange 4, .setFilter 11, .setFilter 255],
    ∃ s t : State, exec i s = .next t ∧ .res (.err .invalidArgument) ∈ t.newEvents s := by
  intro i hi
  obtain ⟨t, h, hp⟩ := of_nextSat (o := exec i (st .idle [] [] []))
    (p := fun t => decide (.res (.err .invalidArgument) ∈ t.newEvents (st .idle [] [] [])))
    (by simp only [List.mem_cons, List.not_mem_nil, or_false] at hi
        rcases hi with rfl | rfl | rfl | rfl <;> decide +kernel)
  exact ⟨_, t, h, of_decide_eq_true hp⟩

/-- FailedTransactionGivesTransportError, UnansweredTransactionWaits: a first read, a write, and a block. -/
theorem witness_before_transaction :
    (∃ s : State, s.seq = .busy 0x0100 0 [] ∧ codeOf .beginCmd s.devAddr 0 [] = .txn (.rdB 0x1D 0x2D) ∧
      s.nextTurn = ⟨[], .fail 0x00⟩) ∧
    (∃ s : State, s.seq = .busy 0x1103 1 [0x81] ∧
      codeOf (.setRange 3) s.devAddr 1 [0x81] = .txn (.wrB 0x1D 0x2C 0x83) ∧ s.nextTurn = ⟨[], .wait⟩) ∧
    ∃ s : State, s.seq = .busy 0x3100 0 [] ∧ codeOf .getTemperature s.devAddr 0 [] = .txn (.rdBlk 0x1D 0x06 2) ∧
      [(0x07 : Byte)].length ≠ 2 ∧ s.nextTurn = ⟨[], .badLength [0x07]⟩ :=
  ⟨⟨st (.busy 0x0100 0 []) [] [] [failWith 0x00], rfl, rfl, rfl⟩,
    ⟨st (.busy 0x1103 1 [0x81]) [] [] [⟨[], .wait⟩], rfl, rfl, rfl⟩,
    ⟨st (.busy 0x3100 0 []) [] [] [⟨[], .badLength [0x07]⟩], rfl, rfl, by decide, rfl⟩⟩

/-- A state before the only transaction of GET_STATUS. -/
def statusBusy (t : Turn) : State := st (.busy 0x3000 0 []) (regs 0x04 [0x01]) [] [t]

/-- TransportErrorOnlyFromAFailedTransaction, TransactionsStayInTheRegisterMap. -/
theorem witness_transport_error : ∃ s t : State, step s = .next t ∧ .res (.err .transportError) ∈ t.newEvents s ∧
    .txn (.rdB 0x1D 0x04) .fail ∈ t.newEvents s := by
  obtain ⟨t, h, hp⟩ := of_nextSat (o := step (statusBusy (failWith 0)))
    (p := fun t => decide (.res (.err .transportError) ∈ t.newEvents (statusBusy (failWith 0)) ∧
      .txn (.rdB 0x1D 0x04) .fail ∈ t.newEvents (statusBusy (failWith 0)))) (by decide +kernel)
  exact ⟨_, t, h, of_decide_eq_true hp⟩

/-- ResultsHaveTheCommandsType, and ReadingCommandsStoreNothing for GET_STATUS. -/
theorem witness_result : ∃ s t : State, exec .getStatus s = .next t ∧ .res (.ok (.bool true)) ∈ t.newEvents s := by
  obtain ⟨t, h, hp⟩ := of_nextSat (o := exec .getStatus (statusBusy serve))
    (p := fun t => decide (.res (.ok (.bool true)) ∈ t.newEvents (statusBusy serve))) (by decide +kernel)
  exact ⟨_, t, h, of_decide_eq_true hp⟩

/-- A SET_RANGE 3 that has read 0x81, in a state that a run reaches. -/
def rangeBusy : State :=
  { devAddr := 0x1D, seq := .busy 0x1103 1 [0x81], mem := regs 0x2C [0x81],
    trace := [.cmd 0x1103, .txn (.rdB 0x1D 0x2C) (.byte 0x81)], host := [0x1000], env := [serve], draws := 0 }

/-- The invariant holds in a `Busy` state. -/
theorem rangeBusy_inv : Inv rangeBusy := by
  refine ⟨by decide, ?_, ?_, by decide⟩
  · intro t a h
    simp only [rangeBusy, List.mem_cons, List.not_mem_nil, or_false, reduceCtorEq, false_or, Event.txn.injEq] at h
    obtain ⟨rfl, -⟩ := h
    decide
  · intro cmd k buf h
    simp only [rangeBusy, SeqState.busy.injEq] at h
    obtain ⟨rfl, rfl, rfl⟩ := h
    exact ⟨.setRange 3, .wrB 0x1D 0x2C 0x83, [], [.txn (.rdB 0x1D 0x2C) (.byte 0x81)], by decide, by decide, rfl, rfl,
      .more [] [] (.rdB 0x1D 0x2C) (.byte 0x81) [0x81] .none (by decide) (by decide)⟩

/-- StepKeepsTheInvariant, InvariantStatesNeverStop, StepIndexStaysInTheCommand, WritesChangeOnlyTheField,
ReservedCodesAreNeverWritten (RANGE). -/
theorem witness_invariant : ∃ s t : State, Inv s ∧ s.seq = .busy 0x1103 1 [0x81] ∧ step s = .next t ∧
    .txn (.wrB 0x1D 0x2C 0x83) .done ∈ t.newEvents s := by
  obtain ⟨t, h, hp⟩ := of_nextSat (o := step rangeBusy)
    (p := fun t => decide (.txn (.wrB 0x1D 0x2C 0x83) .done ∈ t.newEvents rangeBusy)) (by decide +kernel)
  exact ⟨_, t, rangeBusy_inv, rfl, h, of_decide_eq_true hp⟩

/-- A SET_FILTER 10 that has read 0x35. -/
def filterBusy : State :=
  { devAddr := 0x1D, seq := .busy 0x210A 1 [0x35], mem := regs 0x28 [0x35],
    trace := [.cmd 0x210A, .txn (.rdB 0x1D 0x28) (.byte 0x35)], host := [], env := [serve], draws := 0 }

theorem filterBusy_inv : Inv filterBusy := by
  refine ⟨by decide, ?_, ?_, by decide⟩
  · intro t a h
    simp only [filterBusy, List.mem_cons, List.not_mem_nil, or_false, reduceCtorEq, false_or, Event.txn.injEq] at h
    obtain ⟨rfl, -⟩ := h
    decide
  · intro cmd k buf h
    simp only [filterBusy, SeqState.busy.injEq] at h
    obtain ⟨rfl, rfl, rfl⟩ := h
    exact ⟨.setFilter 10, .wrB 0x1D 0x28 0x3A, [], [.txn (.rdB 0x1D 0x28) (.byte 0x35)], by decide, by decide, rfl, rfl,
      .more [] [] (.rdB 0x1D 0x28) (.byte 0x35) [0x35] .none (by decide) (by decide)⟩

/-- ReservedCodesAreNeverWritten (FILTER), with the greatest code. -/
theorem witness_filter_write : ∃ s t : State, Inv s ∧ step s = .next t ∧
    .txn (.wrB 0x1D 0x28 0x3A) .done ∈ t.newEvents s := by
  obtain ⟨t, h, hp⟩ := of_nextSat (o := step filterBusy)
    (p := fun t => decide (.txn (.wrB 0x1D 0x28 0x3A) .done ∈ t.newEvents filterBusy)) (by decide +kernel)
  exact ⟨_, t, filterBusy_inv, h, of_decide_eq_true hp⟩

/-- StepIndexStaysInTheCommand: from `Idle` to `Busy`, and from step 0 to step 1. -/
theorem witness_step_index :
    (∃ s t : State, s.seq = .idle ∧ step s = .next t ∧ t.seq = .busy 0x0100 0 []) ∧
    ∃ s t : State, s.seq = .busy 0x0100 0 [] ∧ step s = .next t ∧ t.seq = .busy 0x0100 1 [0x07] := by
  obtain ⟨t, h, hp⟩ := of_nextSat (o := step (st .idle [] [0x0100] []))
    (p := fun t => t.seq == .busy 0x0100 0 []) (by decide +kernel)
  obtain ⟨u, h', hp'⟩ := of_nextSat (o := step (st (.busy 0x0100 0 []) (regs 0x2D [0x07]) [] [serve]))
    (p := fun t => t.seq == .busy 0x0100 1 [0x07]) (by decide +kernel)
  exact ⟨⟨_, t, rfl, h, eq_of_beq hp⟩, ⟨_, u, rfl, h', eq_of_beq hp'⟩⟩

/-- FrameOfEveryCommand: a storing step, and registers that it and the environment leave alone. -/
theorem witness_frame : ∃ s t : State, exec (.setRange 3) s = .next t ∧ s.nextTurn.quiet 0x1D 0x2D ∧
    storeTarget (.setRange 3) s = some (0x1D, 0x2C) ∧ storeTarget (.setRange 3) s ≠ some (0x1D, 0x2D) := by
  obtain ⟨t, h, -⟩ := of_nextSat (o := exec (.setRange 3) rangeBusy) (p := fun _ => true) (by decide +kernel)
  exact ⟨_, t, h, by simp [State.nextTurn, rangeBusy, serve, Turn.quiet], by decide, by decide⟩

/-- ReadingCommandsStoreNothing: each of the reading commands steps. -/
theorem witness_reading : ∀ i ∈ [Instr.isRunning, .getRange, .getFilter, .getStatus, .getTemperature, .getAxes, .getAxisX,
    .getAxisY, .getAxisZ], ∃ s t : State, exec i s = .next t := by
  intro i hi
  obtain ⟨t, h, -⟩ := of_nextSat (o := exec i (st (.busy (encode i) 0 []) [] [] [failWith 0])) (p := fun _ => true)
    (by simp only [List.mem_cons, List.not_mem_nil, or_false] at hi
        rcases hi with rfl | rfl | rfl | rfl | rfl | rfl | rfl | rfl | rfl <;> decide +kernel)
  exact ⟨_, t, h⟩

/-- RacingWriteIsLost: all four commands. -/
theorem witness_race :
    (∃ s : State, s.seq = .busy 0x0100 1 [0x07] ∧ (0x07 : Byte).getLsbD 0 = true ∧
      s.nextTurn = ⟨[] ++ [⟨s.devAddr, 0x2D, 0x40⟩], .serve⟩) ∧
    (∃ s : State, s.seq = .busy 0x0200 1 [0x06] ∧ (0x06 : Byte).getLsbD 0 = false ∧
      s.nextTurn = ⟨[] ++ [⟨s.devAddr, 0x2D, 0x40⟩], .serve⟩) ∧
    (∃ s : State, s.seq = .busy 0x1103 1 [0x81] ∧ (3 : Byte) ∈ ([1, 2, 3] : List Byte) ∧
      s.nextTurn = ⟨[] ++ [⟨s.devAddr, 0x2C, 0xC1⟩], .serve⟩) ∧
    ∃ s : State, s.seq = .busy 0x210A 1 [0x35] ∧ (10 : Byte).toNat ≤ 10 ∧
      s.nextTurn = ⟨[] ++ [⟨s.devAddr, 0x28, 0xC1⟩], .serve⟩ :=
  ⟨⟨st (.busy 0x0100 1 [0x07]) [] [] [⟨[⟨0x1D, 0x2D, 0x40⟩], .serve⟩], rfl, by decide, rfl⟩,
    ⟨st (.busy 0x0200 1 [0x06]) [] [] [⟨[⟨0x1D, 0x2D, 0x40⟩], .serve⟩], rfl, by decide, rfl⟩,
    ⟨st (.busy 0x1103 1 [0x81]) [] [] [⟨[⟨0x1D, 0x2C, 0xC1⟩], .serve⟩], rfl, by decide, rfl⟩,
    ⟨st (.busy 0x210A 1 [0x35]) [] [] [⟨[⟨0x1D, 0x28, 0xC1⟩], .serve⟩], rfl, by decide, rfl⟩⟩

/-- A GET_RANGE before its read. -/
def viewA : State := st (.busy 0x1000 0 []) (regs 0x2C [0x81]) [] [serve]

/-- The same, with a register of another device and one outside the map written. -/
def viewB : State := viewA.withMem (writeReg (writeReg (regs 0x2C [0x81]) 0x53 0x2C 0x00) 0x1D 0x00 0xAD)

/-- OtherRegistersDoNotMatter. -/
theorem witness_sameView : ∃ s s' t : State, SameView s s' ∧ s.mem ≠ s'.mem ∧ step s = .next t := by
  obtain ⟨t, h, -⟩ := of_nextSat (o := step viewA) (p := fun _ => true) (by decide +kernel)
  refine ⟨viewA, viewB, t, ?_, by decide +kernel, h⟩
  constructor
  case registers =>
    intro r hr
    have hr0 : ¬ ((0x1D : DevAddr) = 0x1D ∧ (0x00 : RegAddr) = r) := by rintro ⟨-, rfl⟩; revert hr; decide
    have hr1 : ¬ ((0x53 : DevAddr) = 0x1D ∧ (0x2C : RegAddr) = r) := fun h => absurd h.1 (by decide)
    rw [show viewA.devAddr = 0x1D from rfl, viewB, State.withMem_mem, readReg_writeReg_other _ _ hr0,
      readReg_writeReg_other _ _ hr1]
    rfl
  all_goals unfold viewB
  all_goals simp only [State.withMem_devAddr, State.withMem_seq, State.withMem_trace, State.withMem_host,
    State.withMem_env, State.withMem_draws]

end Sys2Proof.Tests
end

/-! PROOFS. R15 and R62: the value with which a pseudocode returns is of its command's result type. -/

namespace Sys2Proof.Machine

/-- R180: a decoded lane is a signed 20-bit integer. -/
theorem isInt20_decodeAxis (b3 b2 b1 : Byte) : isInt20 (decodeAxis b3 b2 b1) = true := by
  have h3 := b3.isLt
  have h2 := b2.isLt
  have h1 := b1.isLt
  simp only [decodeAxis, isInt20, Bool.and_eq_true, decide_eq_true_eq, Nat.testBit_eq_decide_div_mod_eq,
    Nat.shiftRight_eq_div_pow]
  split <;> omega

/-- R181: so are the three lanes of a block. -/
theorem isInt20_decodeAxes {bs : List Byte} {lanes : Int × Int × Int} (h : decodeAxes bs = some lanes) :
    isInt20 lanes.1 = true ∧ isInt20 lanes.2.1 = true ∧ isInt20 lanes.2.2 = true := by
  unfold decodeAxes at h
  split at h
  · cases h
    exact ⟨isInt20_decodeAxis _ _ _, isInt20_decodeAxis _ _ _, isInt20_decodeAxis _ _ _⟩
  · cases h

/-- The four axis commands return a value made of the lanes of a decoded block. -/
theorem codeAxesRead_ret {value : Int × Int × Int → Value} {d : DevAddr} {k : Nat} {buf : List Byte} {v : Value}
    (h : codeAxesRead value d k buf = .ret v) : ∃ lanes, decodeAxes buf = some lanes ∧ v = value lanes := by
  unfold codeAxesRead at h
  split at h
  · cases h
  · split at h
    · rename_i lanes hl
      cases h
      exact ⟨lanes, hl, rfl⟩
    · cases h
  · cases h

/-- The value with which a pseudocode returns is of the command's result type (R15, R62). -/
theorem codeOf_ret_hasType {i : Instr} {d : DevAddr} {k : Nat} {buf : List Byte} {v : Value}
    (h : codeOf i d k buf = .ret v) : v.hasType (resultType i) = true := by
  cases i
  case getAxes | getAxisX | getAxisY | getAxisZ =>
    obtain ⟨lanes, hl, rfl⟩ := codeAxesRead_ret h
    obtain ⟨hx, hy, hz⟩ := isInt20_decodeAxes hl
    simp [Value.hasType, resultType, hx, hy, hz]
  all_goals
    simp only [codeOf, codeBegin, codeEnd, codeIsRunning, codeGetRange, codeSetRange, codeGetFilter, codeSetFilter,
      codeGetStatus, codeGetTemperature] at h
    split at h <;> (try split at h) <;> cases h <;> rfl

/-- A step that records `Ok(v)` has come to a point of the pseudocode that returns `v` (R38.5). -/
theorem ExecStep.ok_returned {i : Instr} {s t : State} {v : Value} (h : ExecStep i s t)
    (hv : .res (.ok v) ∈ t.newEvents s) : ∃ k buf, codeOf i s.devAddr k buf = .ret v := by
  cases h with
  | returned cmd k buf tx a m bs v' hs hc ha hb hc' =>
    have hvv : v = v' := by simpa [State.newEvents] using hv
    exact ⟨k + 1, buf ++ bs, hvv ▸ hc'⟩
  | accepted | rejected | waiting | failed | moved => simp [State.newEvents] at hv

/-- Settles O41: only a return of the pseudocode records `Ok(v)`, and each return is of the command's type. -/
theorem resultsHaveTheCommandsType : Obligations.ResultsHaveTheCommandsType := by
  intro i s t v h hv
  obtain ⟨k, buf, hc⟩ := (exec_next h).ok_returned hv
  exact codeOf_ret_hasType hc

end Sys2Proof.Machine

/-! PROOFS. R12: `f64` gives the nearest binary64 value, ties to even. For each unit in the last place `2^E`, a binary64
value is a multiple of `2^E` or lies below `2^52 * 2^E`. Rounding gives the multiple of `2^E` nearest to an exact value of
at least `2^52 * 2^E`, so neither another multiple nor a value below `2^52 * 2^E` is nearer; at `E = 0` every value is a
multiple. -/

namespace Sys2Proof.Machine

/-! ## Where the binary64 values lie -/

/-- A magnitude is a multiple of `2^E` units, or below all magnitudes of that unit in the last place. -/
theorem magUnits_grid (E m : Nat) : 2 ^ E ∣ magUnits m ∨ magUnits m < 2 ^ 52 * 2 ^ E := by
  unfold magUnits
  split
  · have : 1 ≤ 2 ^ E := Nat.one_le_two_pow
    right; omega
  · rcases le_or_gt E (m / 2 ^ 52 - 1) with h | h
    · exact .inl ((pow_dvd_pow 2 h).mul_left _)
    · right
      have hf : 2 ^ 52 + m % 2 ^ 52 < 2 ^ 52 * 2 := by omega
      calc (2 ^ 52 + m % 2 ^ 52) * 2 ^ (m / 2 ^ 52 - 1)
          < 2 ^ 52 * 2 * 2 ^ (m / 2 ^ 52 - 1) := Nat.mul_lt_mul_of_pos_right hf (by positivity)
        _ = 2 ^ 52 * 2 ^ (m / 2 ^ 52 - 1 + 1) := by rw [pow_succ]; ring
        _ ≤ 2 ^ 52 * 2 ^ E := Nat.mul_le_mul_left _ (Nat.pow_le_pow_right (by decide) h)

/-- An integer number of units that is, for every `E`, a multiple of `2^E` units or below all values of that unit in the
last place: what a binary64 value, of either sign, has to be. -/
def OnGrid (u : Int) : Prop := ∀ E : Nat, 2 ^ E ∣ u ∨ u < 2 ^ 52 * 2 ^ E

theorem onGrid_magUnits (m : Nat) : OnGrid (magUnits m) := fun E =>
  (magUnits_grid E m).imp (fun h => by exact_mod_cast h) (fun h => by exact_mod_cast h)

theorem onGrid_neg_magUnits (m : Nat) : OnGrid (-(magUnits m : Int)) := fun E =>
  .inr (lt_of_le_of_lt (by omega) (by positivity : (0 : Int) < 2 ^ 52 * 2 ^ E))

/-- Every binary64 value lies on the grid, with its sign kept or turned. -/
theorem onGrid_sign_mul_f64Units {n : Int} (hn : n ≠ 0) (y : F64) : OnGrid (n.sign * f64Units y) := by
  have hpos := onGrid_magUnits (y.toNat % 2 ^ 63)
  have hneg := onGrid_neg_magUnits (y.toNat % 2 ^ 63)
  rw [← f64Mag_eq] at hpos hneg
  unfold f64Units
  rcases hn.lt_or_gt with h | h
  · rw [Int.sign_eq_neg_one_of_neg h]
    split <;> simp [hpos, hneg]
  · rw [Int.sign_eq_one_of_pos h]
    split <;> simp [hpos, hneg]

/-! ## The nearest point of the grid -/

/-- Where the multiple `q * w` is within half of `w` of `x`, every other multiple of `w` is at least that far away. -/
theorem half_le_abs_of_ne {x w : ℚ} {q k : Int} (hw : 0 < w) (hq : |q * w - x| ≤ w / 2) (hk : k ≠ q) :
    w / 2 ≤ |k * w - x| := by
  have hone : (1 : ℚ) ≤ |(k : ℚ) - q| := by exact_mod_cast Int.one_le_abs (sub_ne_zero.mpr hk)
  have hgap : w ≤ |k * w - q * w| := by
    rw [← sub_mul, abs_mul, abs_of_pos hw]
    exact le_mul_of_one_le_left hw.le hone
  have htri : |k * w - q * w| ≤ |k * w - x| + |q * w - x| := by
    rw [abs_sub_comm (q * w) x]
    exact abs_sub_le _ _ _
  linarith

/-- Such a multiple is a nearest one. -/
theorem abs_le_abs_of_half {x w : ℚ} {q : Int} (hw : 0 < w) (hq : |q * w - x| ≤ w / 2) (k : Int) :
    |q * w - x| ≤ |k * w - x| := by
  by_cases hk : k = q
  · rw [hk]
  · exact hq.trans (half_le_abs_of_ne hw hq hk)

/-- The multiple of `2^E` within half of `2^E` of `x` is a nearest point of the grid, and where another point is as near,
`x` is exactly half way. -/
theorem onGrid_nearest {x : ℚ} {E : Nat} {q u : Int} (hx : E = 0 ∨ (2 : ℚ) ^ 52 * 2 ^ E ≤ x)
    (hq : |(q : ℚ) * 2 ^ E - x| ≤ 2 ^ E / 2) (hu : OnGrid u) :
    |(q : ℚ) * 2 ^ E - x| ≤ |(u : ℚ) - x| ∧
    (|(q : ℚ) * 2 ^ E - x| = |(u : ℚ) - x| → u ≠ q * 2 ^ E → |(q : ℚ) * 2 ^ E - x| = 2 ^ E / 2) := by
  have hw : (0 : ℚ) < 2 ^ E := by positivity
  by_cases hdvd : (2 : Int) ^ E ∣ u
  · obtain ⟨k, rfl⟩ := hdvd
    rw [mul_comm ((2 : Int) ^ E) k, Int.cast_mul, Int.cast_pow, Int.cast_ofNat]
    refine ⟨abs_le_abs_of_half hw hq k, fun heq hne => le_antisymm hq ?_⟩
    rw [heq]
    exact half_le_abs_of_ne hw hq fun hk => hne (by rw [hk])
  · have hE : E ≠ 0 := by rintro rfl; simp at hdvd
    have hx := hx.resolve_left hE
    have hlt : (u : ℚ) < 2 ^ 52 * 2 ^ E := by exact_mod_cast (hu E).resolve_left hdvd
    have hstrict : |(q : ℚ) * 2 ^ E - x| < |(u : ℚ) - x| := by
      calc |(q : ℚ) * 2 ^ E - x| ≤ |((2 ^ 52 : Int) : ℚ) * 2 ^ E - x| := abs_le_abs_of_half hw hq _
        _ = x - 2 ^ 52 * 2 ^ E := by
          rw [Int.cast_pow, Int.cast_ofNat, abs_sub_comm, abs_of_nonneg (sub_nonneg.mpr hx)]
        _ < x - u := sub_lt_sub_left hlt x
        _ ≤ |(u : ℚ) - x| := by rw [abs_sub_comm]; exact le_abs_self _
    exact ⟨hstrict.le, fun heq _ => absurd heq hstrict.ne⟩

/-- The rounded magnitude, where it is finite, is a nearest point of the grid to `n / d`, and its last bit is 0 where
another point is as near. -/
theorem f64RoundMag_nearest {n d : Nat} (hn : 0 < n) (hd : 0 < d) (hfin : f64RoundMag n d < 0x7FF * 2 ^ 52) {u : Int}
    (hu : OnGrid u) :
    |(magUnits (f64RoundMag n d) : ℚ) - n * 2 ^ 1074 / d| ≤ |(u : ℚ) - n * 2 ^ 1074 / d| ∧
    (|(magUnits (f64RoundMag n d) : ℚ) - n * 2 ^ 1074 / d| = |(u : ℚ) - n * 2 ^ 1074 / d| →
      u ≠ magUnits (f64RoundMag n d) → f64RoundMag n d % 2 = 0) := by
  obtain ⟨E, q, hm, hv, -, -, hx, -, hnear, htie⟩ := f64RoundMag_spec hn hd
  have hM : f64RoundMag n d = E * 2 ^ 52 + q := by omega
  rw [hM, hv]
  generalize (n * 2 ^ 1074 / d : ℚ) = x at hx hnear htie ⊢
  obtain ⟨hle, heven⟩ := onGrid_nearest (q := q) hx (by exact_mod_cast hnear) hu
  rw [Int.cast_natCast] at hle heven
  rw [Nat.cast_mul, Nat.cast_pow, Nat.cast_ofNat, Nat.cast_mul, Nat.cast_pow, Nat.cast_ofNat]
  refine ⟨hle, fun heq hne => ?_⟩
  have hq := htie (heven heq hne)
  omega

/-! ## Signs, distances and the last bit -/

/-- The value of `f64` of a fraction that is not 0: its sign times its rounded magnitude. -/
theorem f64Units_f64 {n : Int} (hn : n ≠ 0) (d : Nat) :
    f64Units (f64 n d) = n.sign * magUnits (f64RoundMag n.natAbs d) := by
  rw [f64_eq_pack hn, f64Units_pack (f64RoundMag_lt _ _)]
  rcases hn.lt_or_gt with h | h
  · simp [h, Int.sign_eq_neg_one_of_neg h]
  · simp [h.not_gt, Int.sign_eq_one_of_pos h]

/-- `f64` of a fraction that is not 0 is finite where its rounded magnitude is. -/
theorem f64IsFinite_f64 {n : Int} (hn : n ≠ 0) (d : Nat) :
    f64IsFinite (f64 n d) = true ↔ f64RoundMag n.natAbs d < 0x7FF * 2 ^ 52 := by
  rw [f64_eq_pack hn, f64IsFinite_pack (f64RoundMag_lt _ _)]

/-- The last bit of a packed value is that of its magnitude. -/
theorem f64Pack_getLsbD_zero {neg : Bool} {m : Nat} (h : m < 2 ^ 63) :
    (f64Pack neg m).getLsbD 0 = decide (m % 2 = 1) := by
  rw [BitVec.getLsbD, f64Pack_toNat h, Nat.testBit_zero, decide_eq_decide]
  cases neg
  · simp
  · simp only [if_true]; omega

theorem sign_mul_sign {n : Int} (hn : n ≠ 0) : n.sign * n.sign = 1 := by
  rw [← Int.sign_mul, Int.sign_eq_one_of_pos (mul_self_pos.mpr hn)]

/-- The distance of `u` from `s * m * c / d` for a sign `s`, multiplied by `d`, is that of magnitudes once the sign is
taken off. -/
theorem natAbs_dist {s : Int} {d : Nat} (hs : s * s = 1) (hd : 0 < d) (u : Int) (m c : Nat) :
    ((u * d - s * m * c).natAbs : ℚ) = |((s * u : Int) : ℚ) - m * c / d| * d := by
  have hdq : (0 : ℚ) < d := by exact_mod_cast hd
  have hsign : u * d - s * m * c = s * (s * u * d - m * c) := by linear_combination (-u * d) * hs
  have hscale : (((s * u : Int) : ℚ) - m * c / d) * d = ((s * u * d - m * c : Int) : ℚ) := by
    push_cast
    field_simp
  have hone : s.natAbs = 1 := Int.isUnit_iff_natAbs_eq.mp (IsUnit.of_mul_eq_one _ hs)
  rw [hsign, Int.natAbs_mul, hone, one_mul, Nat.cast_natAbs, Int.cast_abs, ← hscale, abs_mul, abs_of_pos hdq]

/-- `f64` of a fraction that is not 0: no value is nearer, and the last bit is 0 where another is as near. -/
theorem f64_nearest_of_ne_zero {n : Int} {d : Nat} (hn : n ≠ 0) (hd : 0 < d) (hfin : f64IsFinite (f64 n d) = true)
    (y : F64) :
    (f64Units (f64 n d) * d - n * 2 ^ 1074).natAbs ≤ (f64Units y * d - n * 2 ^ 1074).natAbs ∧
    ((f64Units (f64 n d) * d - n * 2 ^ 1074).natAbs = (f64Units y * d - n * 2 ^ 1074).natAbs →
      f64Units y ≠ f64Units (f64 n d) → (f64 n d).getLsbD 0 = false) := by
  have hdq : (0 : ℚ) < d := by exact_mod_cast hd
  have hss := sign_mul_sign hn
  have hr : n.sign * f64Units (f64 n d) = magUnits (f64RoundMag n.natAbs d) := by
    rw [f64Units_f64 hn, ← mul_assoc, hss, one_mul]
  have hdist : ∀ u : Int, ((u * d - n * 2 ^ 1074).natAbs : ℚ) =
      |((n.sign * u : Int) : ℚ) - n.natAbs * 2 ^ 1074 / d| * d := fun u => by
    have h := natAbs_dist hss hd u n.natAbs (2 ^ 1074)
    rw [Int.sign_mul_natAbs, Nat.cast_pow, Nat.cast_pow, Nat.cast_ofNat, Nat.cast_ofNat] at h
    exact h
  obtain ⟨hle, heven⟩ := f64RoundMag_nearest (Int.natAbs_pos.mpr hn) hd ((f64IsFinite_f64 hn d).mp hfin)
    (onGrid_sign_mul_f64Units hn y)
  rw [← Nat.cast_le (α := ℚ), ← Nat.cast_inj (R := ℚ), hdist, hdist, hr, Int.cast_natCast]
  refine ⟨mul_le_mul_of_nonneg_right hle hdq.le, fun heq hne => ?_⟩
  have hmag := heven (mul_right_cancel₀ hdq.ne' heq) fun h => hne (by
    rw [f64Units_f64 hn, ← h, ← mul_assoc, hss, one_mul])
  rw [f64_eq_pack hn, f64Pack_getLsbD_zero (f64RoundMag_lt _ _), hmag]
  rfl

theorem f64Units_f64_zero (d : Nat) : f64Units (f64 0 d) = 0 := by
  rw [f64_zero, f64Zero, f64Units_pack (by norm_num)]
  rfl

/-- Settles O35: off 0 the rounded magnitude is the nearest point of a grid that holds every binary64 value; at 0 the
result is exact. -/
theorem f64IsNearestEven : Obligations.F64IsNearestEven := by
  intro n d hd hfin y _
  by_cases hn : n = 0
  · subst hn
    rw [f64Units_f64_zero, zero_mul, zero_mul, sub_zero, sub_zero, Int.natAbs_zero]
    refine ⟨Nat.zero_le _, fun heq hne => absurd ?_ hne⟩
    exact (mul_eq_zero.mp (Int.natAbs_eq_zero.mp heq.symm)).resolve_right (by omega)
  · exact f64_nearest_of_ne_zero hn hd hfin y

end Sys2Proof.Machine

/-! PROOFS. What a step of a command does to the rest of the state and to the history, and when a step answers a next
state: the facts about the state that the rules of 10_state.md are drawn from. -/

namespace Sys2Proof.Machine

/-! ## The events of a step -/

/-- A command's step never changes the device address (R20). -/
theorem ExecStep.devAddr_eq {i : Instr} {s t : State} (h : ExecStep i s t) : t.devAddr = s.devAddr := by
  cases h <;> simp

/-- A command's step takes no word from the host (R36). -/
theorem ExecStep.host_eq {i : Instr} {s t : State} (h : ExecStep i s t) : t.host = s.host := by
  cases h <;> simp

/-- A command's step only adds to the history (R37). -/
theorem ExecStep.trace_grows {i : Instr} {s t : State} (h : ExecStep i s t) : ∃ es, t.trace = s.trace ++ es := by
  cases h <;> simp

/-- A `Busy` codec's step is a step of its command (R38). -/
theorem step_next_of_busy {s t : State} {cmd : CmdWord} {k : Nat} {buf : List Byte} (hs : s.seq = .busy cmd k buf)
    (h : step s = .next t) : ∃ i, decode cmd = .command i ∧ ExecStep i s t := by
  rcases step_next h with ⟨hi, -⟩ | ⟨w, ws, hi, -⟩ | ⟨w, ws, i, hi, -⟩ | ⟨cmd', k', buf', i, hb, hd, he⟩
  · simp [hs] at hi
  · simp [hs] at hi
  · simp [hs] at hi
  · obtain rfl : cmd' = cmd := by simp_all
    exact ⟨i, hd, he⟩

/-- A transaction that a command's step records is the one its pseudocode stood before (R38). -/
theorem ExecStep.txn_recorded {i : Instr} {s t : State} {tx : Txn} {a : Answer} (h : ExecStep i s t)
    (ht : .txn tx a ∈ t.newEvents s) : ∃ cmd k buf, s.seq = .busy cmd k buf ∧ codeOf i s.devAddr k buf = .txn tx := by
  cases h with
  | accepted | rejected | waiting => simp [State.newEvents] at ht
  | failed cmd k buf tx' a' m hs hc | moved cmd k buf tx' a' m bs tx'' hs hc | returned cmd k buf tx' a' m bs v hs hc =>
    have htx : tx = tx' ∧ a = a' := by simpa [State.newEvents] using ht
    exact ⟨cmd, k, buf, hs, htx.1 ▸ hc⟩

/-- Only a command in progress records a transaction: the one its pseudocode stood before (R36, R38). -/
theorem step_txn_recorded {s t : State} {tx : Txn} {a : Answer} (h : step s = .next t)
    (ht : .txn tx a ∈ t.newEvents s) :
    ∃ cmd k buf i, s.seq = .busy cmd k buf ∧ decode cmd = .command i ∧ codeOf i s.devAddr k buf = .txn tx := by
  rcases step_next h with ⟨-, -, rfl⟩ | ⟨w, ws, -, -, -, rfl⟩ | ⟨w, ws, i, hs, -, -, he⟩ |
    ⟨cmd, k, buf, i, hs, hd, he⟩
  · simp [State.newEvents] at ht
  · simp [State.newEvents] at ht
  · obtain ⟨cmd, k, buf, hb, -⟩ := he.txn_recorded ht
    simp [hs] at hb
  · obtain ⟨cmd', k', buf', hb, hc⟩ := he.txn_recorded ht
    cases hs.symm.trans hb
    exact ⟨cmd, k, buf, i, hs, hd, hc⟩

/-- The codec's transactions carry its device address (R20). -/
theorem codecTxn_dev {d : DevAddr} {t : Txn} (h : codecTxn d t = true) : t.dev = d := by
  cases t <;> simp only [codecTxn, Bool.and_eq_true, beq_iff_eq] at h <;> exact h.1

/-! ## When a step answers a next state -/

/-- An `Idle` codec that is presented no word stays as it is (R208). -/
theorem step_of_idle_nil {s : State} (hs : s.seq = .idle) (hh : s.host = []) : step s = .next s := by
  simp [step, hs, hh]

/-- An `Idle` codec that is presented a word that decodes to no command rejects the word (R36, R204). -/
theorem step_of_idle_illegal {s : State} {w : CmdWord} {ws : List CmdWord} (hs : s.seq = .idle)
    (hh : s.host = w :: ws) (hd : (decode w).isCommand = false) : step s = .next ((s.withHost ws).rejectWord w) := by
  cases hw : decode w with
  | command i => simp [hw, Decoded.isCommand] at hd
  | illegal why => simp [step, hs, hh, hw]

/-- An `Idle` codec accepts a command or rejects its operand. -/
theorem exec_next_of_idle (i : Instr) {s : State} (hs : s.seq = .idle) : ∃ t, exec i s = .next t := by
  rw [exec_of_idle hs, State.proceed]
  rcases codeOf_start i s.devAddr with ⟨tx, hc⟩ | hc <;> simp [hc]

/-- A command in progress whose pseudocode stands before a transaction goes on, whatever the answer. -/
theorem exec_next_of_busy {i : Instr} {s : State} {cmd : CmdWord} {k : Nat} {buf : List Byte} {tx : Txn}
    (hs : s.seq = .busy cmd k buf) (hc : codeOf i s.devAddr k buf = .txn tx) : ∃ t, exec i s = .next t := by
  rw [exec_of_busy hs, State.transact, hc]
  dsimp only
  split
  · exact ⟨_, rfl⟩
  · rename_i a m _
    unfold State.completeTxn
    split
    · exact ⟨_, rfl⟩
    · rename_i bs hb
      have hpath := codeOf_continues hc hb
      unfold State.proceed
      split
      case h_4 hoff => exact absurd hoff hpath
      all_goals exact ⟨_, rfl⟩

/-- `ExecStep` says exactly what a command's step answers. -/
theorem exec_eq_next_iff {i : Instr} {s t : State} : exec i s = .next t ↔ ExecStep i s t := by
  refine ⟨exec_next, fun h => ?_⟩
  cases h with
  | accepted tx hs hc => simp [exec_of_idle hs, State.proceed, hc]
  | rejected hs hc => simp [exec_of_idle hs, State.proceed, hc]
  | waiting cmd k buf tx hs hc ha => simp [exec_of_busy hs, State.transact, hc, ha]
  | failed cmd k buf tx a m hs hc ha hb => simp [exec_of_busy hs, State.transact, hc, ha, State.completeTxn, hb]
  | moved cmd k buf tx a m bs tx' hs hc ha hb hc' =>
    simp [exec_of_busy hs, State.transact, hc, ha, State.completeTxn, hb, State.proceed, hc']
  | returned cmd k buf tx a m bs v hs hc ha hb hc' =>
    simp [exec_of_busy hs, State.transact, hc, ha, State.completeTxn, hb, State.proceed, hc']

/-! ## The words of commands -/

/-- A word that decodes to a command is that command's OP above its ARG (R60, R62, R63). -/
theorem encode_of_decode {w : CmdWord} {i : Instr} (h : decode w = .command i) : encode i = w := by
  rw [encode, ← word_of_fields w]
  unfold decode at h
  split at h
  case h_5 hop | h_7 hop =>
    cases h
    rw [byte_of_toNat hop]
    rfl
  case h_14 => cases h
  all_goals
    rename_i hop
    obtain ⟨harg, rfl⟩ := decodePlain_command h
    rw [byte_of_toNat hop, harg]
    rfl

/-! ## Legal operands -/

theorem validRange_iff {a : Byte} : validRange a = true ↔ a ∈ ([1, 2, 3] : List Byte) := by
  simp [validRange, or_assoc]

theorem validFilter_iff {a : Byte} : validFilter a = true ↔ a.toNat ≤ 10 := decide_eq_true_iff

/-- A command with a legal operand, or with none, has a transaction first (R36, R125, R145). -/
theorem codeOf_start_of_legal {i : Instr} (hr : ∀ a, i = .setRange a → validRange a = true)
    (hf : ∀ a, i = .setFilter a → validFilter a = true) (d : DevAddr) : ∃ tx, codeOf i d 0 [] = .txn tx := by
  refine (codeOf_start i d).resolve_right fun hc => ?_
  obtain ⟨-, -, -, ⟨a, hi, ha⟩ | ⟨a, hi, ha⟩⟩ := codeOf_raise hc
  · simp [hr a hi] at ha
  · simp [hf a hi] at ha

/-! ## The rules of the step and of acceptance -/

/-- Settles O7: the decoded command is what `step` dispatches on, for a presented word and for the command in
progress. -/
theorem stepRunsTheDecodedCommand : Obligations.StepRunsTheDecodedCommand := by
  refine ⟨fun s w ws i hs hh hd => step_of_idle hs hh hd, fun s cmd k buf i hs hd => step_of_busy hs hd,
    fun s n w i hd => ?_, fun s hs hh => step_of_idle_nil hs hh⟩
  exact step_of_idle (s := s.withFetchWord n w) rfl rfl (decode_tableWord hd)

/-- Settles O44: creation sets the address to its argument and the sequencer to `Idle`. -/
theorem creationIsIdle : Obligations.CreationIsIdle :=
  ⟨fun _ _ _ _ => ⟨rfl, rfl⟩, rfl, rfl⟩

/-- An `Idle` codec that is presented a command with a legal operand, or with none, becomes `Busy` (R36). -/
theorem step_accepts {s : State} {w : CmdWord} {ws : List CmdWord} {i : Instr} (hs : s.seq = .idle)
    (hh : s.host = w :: ws) (hd : decode w = .command i) (hr : ∀ a, i = .setRange a → validRange a = true)
    (hf : ∀ a, i = .setFilter a → validFilter a = true) :
    step s = .next { s with host := ws, seq := .busy w 0 [], trace := s.trace ++ [.cmd w] } := by
  have hexec := accepts_of_txn (codeOf_start_of_legal hr hf) (s.withHost ws) hs
  rw [encode_of_decode hd] at hexec
  exact (step_of_idle hs hh hd).trans hexec

/-- An `Idle` codec that is presented a setter with an illegal operand ends it at once (R36, R201). -/
theorem step_rejectsArgument {s : State} {w : CmdWord} {ws : List CmdWord} {i : Instr} (hs : s.seq = .idle)
    (hh : s.host = w :: ws) (hd : decode w = .command i) (hc : ∀ d, codeOf i d 0 [] = .raise .invalidArgument) :
    step s = .next { s with host := ws, trace := s.trace ++ [.cmd w, .res (.err .invalidArgument)] } := by
  have hexec := rejectsArgument_of_raise hc (s.withHost ws) hs
  rw [encode_of_decode hd] at hexec
  exact (step_of_idle hs hh hd).trans hexec

/-- The state after a rejected word, its fields written out. -/
theorem step_rejectsWord {s : State} {w : CmdWord} {ws : List CmdWord} (hs : s.seq = .idle)
    (hh : s.host = w :: ws) (hd : (decode w).isCommand = false) :
    step s = .next { s with host := ws, trace := s.trace ++ [.cmd w, .res (.err .illegalCommand)] } := by
  rw [step_of_idle_illegal hs hh hd]
  simp [State.finish, State.record, State.withSeq, State.withHost, hs]

/-- Settles O8: each kind of presented word has its lemma, and a `Busy` codec's step is a command's step, which takes no
word. -/
theorem acceptingACommand : Obligations.AcceptingACommand := by
  refine ⟨fun s w ws hs hh => ⟨step_rejectsWord hs hh, fun a hd ha => ?_, fun a hd ha => ?_, fun i hd hr hf => ?_⟩,
    fun s t cmd k buf hs h => ?_⟩
  · have hv : validRange a = false := Bool.eq_false_iff.mpr (mt validRange_iff.mp ha)
    exact step_rejectsArgument hs hh hd fun d => by simp [codeOf, codeSetRange, hv]
  · have hv : validFilter a = false := Bool.eq_false_iff.mpr (mt validFilter_iff.mp (by omega))
    exact step_rejectsArgument hs hh hd fun d => by simp [codeOf, codeSetFilter, hv]
  · exact step_accepts hs hh hd (fun a hi => validRange_iff.mpr (hr a hi)) fun a hi => validFilter_iff.mpr (hf a hi)
  · obtain ⟨i, -, he⟩ := step_next_of_busy hs h
    exact he.host_eq

/-- Settles O43: no step writes the address, and a pseudocode issues transactions to its own device only. -/
theorem deviceAddressIsImmutable : Obligations.DeviceAddressIsImmutable := by
  refine ⟨fun _ _ _ _ => rfl, rfl, fun s t h => ⟨?_, fun tx a ht => ?_⟩⟩
  · rcases step_next h with ⟨-, -, rfl⟩ | ⟨w, ws, -, -, -, rfl⟩ | ⟨w, ws, i, -, -, -, he⟩ | ⟨cmd, k, buf, i, -, -, he⟩
    · rfl
    · rfl
    · exact he.devAddr_eq
    · exact he.devAddr_eq
  · obtain ⟨cmd, k, buf, i, -, -, hc⟩ := step_txn_recorded h ht
    exact codecTxn_dev (codeOf_txn hc)

/-- Settles O49: the invariant puts a command in progress before a transaction of its pseudocode. -/
theorem invariantStatesNeverStop : Obligations.InvariantStatesNeverStop := by
  intro s hinv
  cases hs : s.seq with
  | idle =>
    cases hh : s.host with
    | nil => exact ⟨s, step_of_idle_nil hs hh⟩
    | cons w ws =>
      cases hd : decode w with
      | command i => exact step_of_idle hs hh hd ▸ exec_next_of_idle i hs
      | illegal why => exact ⟨_, step_of_idle_illegal hs hh (by rw [hd]; rfl)⟩
  | busy cmd k buf =>
    obtain ⟨i, tx, before, es, hd, hc, -⟩ := hinv.sequencer cmd k buf hs
    exact step_of_busy hs hd ▸ exec_next_of_busy hs hc

/-- The number of transactions a command issues at most, as R23 tells it. -/
theorem maxTxns_eq (i : Instr) :
    maxTxns i = if i ∈ [Instr.beginCmd, .endCmd] ∨ i.takesOperand = true then 2 else 1 := by
  cases i <;> rfl

/-- A pseudocode stands before a transaction only after fewer than it issues at most. -/
theorem lt_maxTxns_of_codeOf_txn {i : Instr} {d : DevAddr} {k : Nat} {buf : List Byte} {tx : Txn}
    (h : codeOf i d k buf = .txn tx) : k < maxTxns i := by
  rcases codeOf_txn_at h with ⟨rfl, -⟩ | ⟨rfl, hmax, -⟩
  · cases i <;> simp [maxTxns]
  · omega

/-- A command accepted has completed no transaction and has no bytes (R22, R36). -/
theorem ExecStep.busy_of_idle {i : Instr} {s t : State} {w : CmdWord} {k : Nat} {buf : List Byte} (h : ExecStep i s t)
    (hs : s.seq = .idle) (ht : t.seq = .busy w k buf) : k = 0 ∧ buf = [] := by
  cases h <;> simp_all

/-- A command that stays in progress keeps its word, and its step index counts the transactions it completes (R38.4). -/
theorem ExecStep.busy_of_busy {i : Instr} {s t : State} {cmd cmd' : CmdWord} {k k' : Nat} {buf buf' : List Byte}
    (h : ExecStep i s t) (hs : s.seq = .busy cmd k buf) (ht : t.seq = .busy cmd' k' buf') :
    cmd' = cmd ∧ k' = k + (t.newEvents s).countP Event.isTxn := by
  cases h with
  | accepted tx hi | rejected hi => simp [hs] at hi
  | waiting => simp_all [State.newEvents]
  | failed | returned => simp at ht
  | moved => simp_all [State.newEvents, Event.isTxn]

/-- Settles O50: a command in progress stands before a transaction of its pseudocode, and the inversion of a step says
what index follows. -/
theorem stepIndexStaysInTheCommand : Obligations.StepIndexStaysInTheCommand := by
  refine ⟨fun s cmd k buf hinv hs => ?_, fun s t w k buf hs h ht => ?_, fun s t cmd cmd' k k' buf buf' hs h ht => ?_⟩
  · obtain ⟨i, tx, before, es, hd, hc, -⟩ := hinv.sequencer cmd k buf hs
    exact ⟨i, hd, maxTxns_eq i ▸ lt_maxTxns_of_codeOf_txn hc⟩
  · rcases step_next h with ⟨-, -, rfl⟩ | ⟨w', ws, -, -, -, rfl⟩ | ⟨w', ws, i, -, -, -, he⟩ | ⟨_, _, _, i, hb, -⟩
    · simp [hs] at ht
    · simp at ht
    · exact he.busy_of_idle hs ht
    · simp [hs] at hb
  · obtain ⟨i, -, he⟩ := step_next_of_busy hs h
    exact he.busy_of_busy hs ht

end Sys2Proof.Machine

/-! PROOFS. R33: the byte a read-modify-write command puts back. -/

namespace Sys2Proof.Machine

/-- Bits put in outside a mask do not show under it. -/
theorem or_and_of_disjoint (p : Byte) {a m : Byte} (h : a &&& m = 0) : (p ||| a) &&& m = p &&& m := by
  rw [BitVec.and_or_distrib_right, h]
  exact BitVec.or_zero

/-- The legal RANGE codes lie in bits 1:0 (R123). -/
theorem and_range_mask_of_validRange : ∀ {a : Byte}, validRange a = true → a &&& 0xFC = 0 := by decide

/-- The legal FILTER codes lie in bits 3:0 (R143). -/
theorem and_filter_mask_of_validFilter : ∀ {a : Byte}, validFilter a = true → a &&& 0xF0 = 0 := by decide

/-- R101: clearing STANDBY keeps bits 7:1. -/
theorem clearStandby_and_mask (p : Byte) : clearStandby p &&& 0xFE = p &&& 0xFE := by
  rw [clearStandby, BitVec.and_assoc, BitVec.and_self]

/-- R101: setting STANDBY keeps bits 7:1. -/
theorem setStandby_and_mask (p : Byte) : setStandby p &&& 0xFE = p &&& 0xFE := or_and_of_disjoint p rfl

/-- R121: a legal RANGE code merged keeps bits 7:2. -/
theorem mergeRange_and_mask (p : Byte) {a : Byte} (h : validRange a = true) : mergeRange p a &&& 0xFC = p &&& 0xFC := by
  rw [mergeRange, or_and_of_disjoint _ (and_range_mask_of_validRange h), BitVec.and_assoc, BitVec.and_self]

/-- R141: a legal FILTER code merged keeps bits 7:4. -/
theorem mergeFilter_and_mask (p : Byte) {a : Byte} (h : validFilter a = true) :
    mergeFilter p a &&& 0xF0 = p &&& 0xF0 := by
  rw [mergeFilter, or_and_of_disjoint _ (and_filter_mask_of_validFilter h), BitVec.and_assoc, BitVec.and_self]

/-- A write that a pseudocode issues after a transaction changes the byte read in the target field only (R33). -/
theorem codeOf_write_keeps {i : Instr} {d d' : DevAddr} {k : Nat} {p : Byte} {r : RegAddr} {v : Byte} {t0 : Txn}
    (h0 : codeOf i d 0 [] = .txn t0) (h : codeOf i d k [p] = .txn (.wrB d' r v)) :
    (r = 0x2D ∧ v &&& 0xFE = p &&& 0xFE) ∨ (r = 0x2C ∧ v &&& 0xFC = p &&& 0xFC) ∨
      (r = 0x28 ∧ v &&& 0xF0 = p &&& 0xF0) := by
  obtain ⟨-, ⟨rfl, -, rfl, rfl⟩ | ⟨rfl, -, rfl, rfl⟩ | ⟨a, rfl, rfl, rfl⟩ | ⟨a, rfl, rfl, rfl⟩⟩ := codeOf_write h
  · exact .inl ⟨rfl, clearStandby_and_mask p⟩
  · exact .inl ⟨rfl, setStandby_and_mask p⟩
  · exact .inr (.inl ⟨rfl, mergeRange_and_mask p (codeOf_setter_start.1 h0)⟩)
  · exact .inr (.inr ⟨rfl, mergeFilter_and_mask p (codeOf_setter_start.2 h0)⟩)

/-- A command without transactions so far has no bytes. -/
theorem Answered.buf_nil {code : Code} {es : List Event} {buf : List Byte} (h : Answered code es buf) (he : es = []) :
    buf = [] := by
  cases h <;> simp_all

/-- A command with one transaction so far has issued its first, whose bytes are all it has. -/
theorem Answered.of_length_one {code : Code} {es : List Event} {buf : List Byte} (h : Answered code es buf)
    (hl : es.length = 1) : ∃ t a, es = [.txn t a] ∧ code 0 [] = .txn t ∧ acceptedBytes t a = some buf := by
  cases h with
  | none => simp at hl
  | more es buf t a bs h hc hb =>
    obtain rfl : es = [] := by simpa using hl
    obtain rfl := h.buf_nil rfl
    exact ⟨t, a, rfl, hc, hb⟩

/-- A byte read is accepted with the byte it answered. -/
theorem answer_of_acceptedBytes_rdB {d : DevAddr} {r : RegAddr} {a : Answer} {p : Byte}
    (h : acceptedBytes (.rdB d r) a = some [p]) : a = .byte p := by
  cases a <;> simp_all [acceptedBytes]

/-- Settles O51: a write stands second in its pseudocode, so the history of the command, which the invariant gives, is
the one read of the same register. -/
theorem writesChangeOnlyTheField : Obligations.WritesChangeOnlyTheField := by
  intro s t d r v a hinv h hw
  obtain ⟨cmd, k, buf, i, hs, hd, hc⟩ := step_txn_recorded h hw
  obtain rfl : d = s.devAddr := codecTxn_dev (codeOf_txn hc)
  obtain ⟨i', -, before, es, hd', -, htrace, hlen, hans⟩ := hinv.sequencer cmd k buf hs
  obtain rfl : i' = i := by simp_all
  rcases codeOf_txn_at hc with ⟨-, -, hne⟩ | ⟨rfl, -, p, r', v', rfl, hwr, -, -, hfirst⟩
  · exact absurd rfl (hne r v)
  · cases hwr
    obtain ⟨t0, a0, rfl, hc0, hb0⟩ := hans.of_length_one hlen
    obtain rfl := hfirst t0 hc0
    obtain rfl := answer_of_acceptedBytes_rdB hb0
    exact ⟨cmd, p, before, hs, htrace, codeOf_write_keeps hc0 hc⟩

end Sys2Proof.Machine

/-! PROOFS. The frame of a step: which registers it leaves alone. -/

namespace Sys2Proof.Machine

/-- The environment's next steps leave a register alone that the turn is quiet about. -/
theorem readReg_afterActs_quiet {s : State} {d : DevAddr} {r : RegAddr} (h : s.nextTurn.quiet d r) :
    readReg s.afterActs.mem d r = readReg s.mem d r := by
  rw [State.afterActs_mem, readReg_applyActs_quiet _ _ h]

/-- The write standing next in a command's pseudocode names its store target. -/
theorem storeTarget_of_write {i : Instr} {s : State} {cmd : CmdWord} {k : Nat} {buf : List Byte} {d : DevAddr}
    {r : RegAddr} {v : Byte} (hs : s.seq = .busy cmd k buf) (hc : codeOf i s.devAddr k buf = .txn (.wrB d r v)) :
    storeTarget i s = some (d, r) := by
  simp [storeTarget, hs, hc]

/-- A transaction of the command in progress leaves a register alone that the environment's steps and the write standing
next do not name. -/
theorem readReg_answerTxn_frame {i : Instr} {s : State} {cmd : CmdWord} {k : Nat} {buf : List Byte} {tx : Txn}
    {a : Answer} {m : Memory} {d : DevAddr} {r : RegAddr} (hs : s.seq = .busy cmd k buf)
    (hc : codeOf i s.devAddr k buf = .txn tx) (ha : answerTxn s.nextTurn.draw tx s.afterActs.mem = some (a, m))
    (hq : s.nextTurn.quiet d r) (hst : storeTarget i s ≠ some (d, r)) : readReg m d r = readReg s.mem d r := by
  rw [answerTxn_other ha fun v htx => hst (storeTarget_of_write hs (htx ▸ hc)), readReg_afterActs_quiet hq]

/-- A command's step leaves a register alone that the environment's steps and the write standing next do not name. -/
theorem ExecStep.readReg_frame {i : Instr} {s t : State} {d : DevAddr} {r : RegAddr} (h : ExecStep i s t)
    (hq : s.nextTurn.quiet d r) (hst : storeTarget i s ≠ some (d, r)) : readReg t.mem d r = readReg s.mem d r := by
  cases h with
  | accepted | rejected => rfl
  | waiting => exact readReg_afterActs_quiet hq
  | failed cmd k buf tx a m hs hc ha | moved cmd k buf tx a m bs tx' hs hc ha
  | returned cmd k buf tx a m bs v hs hc ha => exact readReg_answerTxn_frame hs hc ha hq hst

/-- Settles O53: the frames of the address, the host's words, the history and the registers, put together. -/
theorem frameOfEveryCommand : Obligations.FrameOfEveryCommand := by
  intro i s t h
  have he := exec_next h
  exact ⟨he.devAddr_eq, he.host_eq, he.trace_grows, fun d r hq hst => he.readReg_frame hq hst⟩

end Sys2Proof.Machine

/-! PROOFS. R32: what the codec does not address makes no difference to it. Two register spaces agree where their mapped
registers do; every operation on them keeps the agreement and answers the same. -/

namespace Sys2Proof.Machine

/-! ## Register spaces that agree on the map -/

/-- The two register spaces hold the same in the mapped registers of device `d` (R41). -/
def MapAgrees (d : DevAddr) (m m' : Memory) : Prop := ∀ r, codecReg r = true → readReg m d r = readReg m' d r

/-- What `SameView` says of the registers. -/
theorem SameView.mapAgrees {s s' : State} (h : SameView s s') : MapAgrees s.devAddr s.mem s'.mem := h.registers

/-- One byte put into the same register of both, mapped or not, keeps the agreement. -/
theorem mapAgrees_writeReg {d : DevAddr} {m m' : Memory} (h : MapAgrees d m m') (d' : DevAddr) (r' : RegAddr)
    (v : Byte) : MapAgrees d (writeReg m d' r' v) (writeReg m' d' r' v) := by
  intro r hr
  by_cases hloc : d' = d ∧ r' = r
  · obtain ⟨rfl, rfl⟩ := hloc
    rw [readReg_writeReg_same, readReg_writeReg_same]
  · rw [readReg_writeReg_other _ _ hloc, readReg_writeReg_other _ _ hloc, h r hr]

/-- The environment's steps keep the agreement. -/
theorem mapAgrees_applyActs {d : DevAddr} {m m' : Memory} (h : MapAgrees d m m') (acts : List RegWrite) :
    MapAgrees d (applyActs acts m) (applyActs acts m') := by
  induction acts generalizing m m' with
  | nil => exact h
  | cons w acts ih => exact ih (mapAgrees_writeReg h w.dev w.reg w.val)

/-- The one-byte registers the codec reads lie in the map (R41, R43). -/
theorem codecReg_of_rdB {d d' : DevAddr} {r : RegAddr} (h : codecTxn d (.rdB d' r) = true) : codecReg r = true := by
  simp only [codecTxn, Bool.and_eq_true, Bool.or_eq_true, beq_iff_eq] at h
  obtain ⟨-, ((rfl | rfl) | rfl) | rfl⟩ := h <;> decide

/-- The blocks the codec reads lie in the map (R41, R43). -/
theorem codecReg_of_rdBlk {d d' : DevAddr} {r : RegAddr} {n i : Nat} (h : codecTxn d (.rdBlk d' r n) = true)
    (hi : i < n) : codecReg (r + BitVec.ofNat 8 i) = true := by
  simp only [codecTxn, Bool.and_eq_true, Bool.or_eq_true, beq_iff_eq] at h
  obtain ⟨-, ⟨rfl, rfl⟩ | ⟨rfl, rfl⟩⟩ := h <;> interval_cases i <;> decide

/-- A transaction of the codec, served, answers the same on both and keeps the agreement. -/
theorem serveTxn_of_mapAgrees {m m' n : Memory} {d : DevAddr} {t : Txn} {a : Answer} (h : MapAgrees d m m')
    (ht : codecTxn d t = true) (ha : serveTxn t m = (a, n)) : ∃ n', serveTxn t m' = (a, n') ∧ MapAgrees d n n' := by
  obtain rfl := codecTxn_dev ht
  cases t with
  | rdB d' r =>
    cases ha
    exact ⟨m', congrArg (Answer.byte ·, m') (h r (codecReg_of_rdB ht)).symm, h⟩
  | wrB d' r v =>
    cases ha
    exact ⟨_, rfl, mapAgrees_writeReg h d' r v⟩
  | rdBlk d' r k =>
    cases ha
    have hregs : readRegs m' d' r k = readRegs m d' r k :=
      List.map_congr_left fun i hi => (h _ (codecReg_of_rdBlk ht (List.mem_range.mp hi))).symm
    exact ⟨m', congrArg (Answer.bytes ·, m') hregs, h⟩

/-- A transaction that fails answers the same on both and keeps the agreement (R56). -/
theorem failTxn_of_mapAgrees {m m' n : Memory} {d : DevAddr} {left : Byte} {t : Txn} {a : Answer}
    (h : MapAgrees d m m') (ha : failTxn left t m = (a, n)) : ∃ n', failTxn left t m' = (a, n') ∧ MapAgrees d n n' := by
  cases t with
  | rdB | rdBlk =>
    cases ha
    exact ⟨m', rfl, h⟩
  | wrB d' r v =>
    cases ha
    exact ⟨_, rfl, mapAgrees_writeReg h d' r left⟩

/-- So does one answered with bytes of the environment's choice (R57). -/
theorem badLengthTxn_of_mapAgrees {m m' n : Memory} {d : DevAddr} {bs : List Byte} {t : Txn} {a : Answer}
    (h : MapAgrees d m m') (ht : codecTxn d t = true) (ha : badLengthTxn bs t m = (a, n)) :
    ∃ n', badLengthTxn bs t m' = (a, n') ∧ MapAgrees d n n' := by
  cases t with
  | rdB | wrB => exact serveTxn_of_mapAgrees h ht ha
  | rdBlk d' r k =>
    unfold badLengthTxn at ha ⊢
    by_cases hl : bs.length = k
    · simp only [hl, if_true] at ha ⊢
      exact serveTxn_of_mapAgrees h ht ha
    · simp only [hl, if_false] at ha ⊢
      cases ha
      exact ⟨m', rfl, h⟩

/-- A transaction of the codec that is answered on one is answered the same on the other, and the agreement is kept. -/
theorem answerTxn_of_mapAgrees {m m' n : Memory} {d : DevAddr} {draw : Draw} {t : Txn} {a : Answer}
    (h : MapAgrees d m m') (ht : codecTxn d t = true) (ha : answerTxn draw t m = some (a, n)) :
    ∃ n', answerTxn draw t m' = some (a, n') ∧ MapAgrees d n n' := by
  cases draw with
  | wait => cases ha
  | serve =>
    obtain ⟨n', hn, hag⟩ := serveTxn_of_mapAgrees h ht (Option.some.inj ha)
    exact ⟨n', congrArg some hn, hag⟩
  | fail left =>
    obtain ⟨n', hn, hag⟩ := failTxn_of_mapAgrees h (Option.some.inj ha)
    exact ⟨n', congrArg some hn, hag⟩
  | badLength bs =>
    obtain ⟨n', hn, hag⟩ := badLengthTxn_of_mapAgrees h ht (Option.some.inj ha)
    exact ⟨n', congrArg some hn, hag⟩

/-- Whether a transaction is answered at all is the environment's choice alone (I17). -/
theorem answerTxn_eq_none_iff {draw : Draw} {t : Txn} {m : Memory} : answerTxn draw t m = none ↔ draw = .wait := by
  cases draw <;> simp [answerTxn]

/-! ## States with the same view -/

/-- The updates keep the view where the register space stays. -/
theorem SameView.record {s s' : State} (h : SameView s s') (e : Event) : SameView (s.record e) (s'.record e) :=
  { h with trace := congrArg (· ++ [e]) h.trace }

theorem SameView.withSeq {s s' : State} (h : SameView s s') (q : SeqState) : SameView (s.withSeq q) (s'.withSeq q) :=
  { h with seq := rfl }

theorem SameView.withHost {s s' : State} (h : SameView s s') (ws : List CmdWord) :
    SameView (s.withHost ws) (s'.withHost ws) :=
  { h with host := rfl }

theorem SameView.withMem {s s' : State} {m m' : Memory} (h : SameView s s') (hm : MapAgrees s.devAddr m m') :
    SameView (s.withMem m) (s'.withMem m') :=
  { h with registers := hm }

theorem SameView.finish {s s' : State} (h : SameView s s') (r : Result) : SameView (s.finish r) (s'.finish r) :=
  (h.record _).withSeq _

/-- The environment's turn is the same in both states. -/
theorem SameView.nextTurn {s s' : State} (h : SameView s s') : s.nextTurn = s'.nextTurn := by
  rw [State.nextTurn, State.nextTurn, h.env, h.draws]

/-- The environment's steps keep the view. -/
theorem SameView.afterActs {s s' : State} (h : SameView s s') : SameView s.afterActs s'.afterActs := by
  rw [s.afterActs_eq, s'.afterActs_eq, ← h.nextTurn]
  exact { h with
    env := congrArg List.tail h.env
    draws := by rw [h.env, h.draws]
    registers := mapAgrees_applyActs h.mapAgrees _ }

/-- A transaction answered in one state is answered the same in the other, and the view is kept. -/
theorem SameView.answered {s s' : State} {tx : Txn} {a : Answer} {m : Memory} (h : SameView s s')
    (ht : codecTxn s.devAddr tx = true) (ha : answerTxn s.nextTurn.draw tx s.afterActs.mem = some (a, m)) :
    ∃ m', answerTxn s'.nextTurn.draw tx s'.afterActs.mem = some (a, m') ∧
      SameView ((s.afterActs.withMem m).record (.txn tx a)) ((s'.afterActs.withMem m').record (.txn tx a)) := by
  have hagree : MapAgrees s.devAddr s.afterActs.mem s'.afterActs.mem := s.afterActs_devAddr ▸ h.afterActs.mapAgrees
  obtain ⟨m', ha', hm⟩ := answerTxn_of_mapAgrees hagree ht ha
  refine ⟨m', h.nextTurn ▸ ha', (h.afterActs.withMem ?_).record _⟩
  rwa [State.afterActs_devAddr]

/-- A command's step in one state has a step of the same kind in the other, and the view is kept. -/
theorem ExecStep.sameView {i : Instr} {s s' t : State} (h : ExecStep i s t) (hv : SameView s s') :
    ∃ t', ExecStep i s' t' ∧ SameView t t' := by
  cases h with
  | accepted tx hs hc =>
    exact ⟨_, .accepted tx (hv.seq ▸ hs) (hv.devAddr ▸ hc), (hv.record _).withSeq _⟩
  | rejected hs hc =>
    exact ⟨_, .rejected (hv.seq ▸ hs) (hv.devAddr ▸ hc), (hv.record _).finish _⟩
  | waiting cmd k buf tx hs hc ha =>
    have ha' : answerTxn s'.nextTurn.draw tx s'.afterActs.mem = none :=
      answerTxn_eq_none_iff.mpr (hv.nextTurn ▸ answerTxn_eq_none_iff.mp ha)
    exact ⟨_, .waiting cmd k buf tx (hv.seq ▸ hs) (hv.devAddr ▸ hc) ha', hv.afterActs⟩
  | failed cmd k buf tx a m hs hc ha hb =>
    obtain ⟨m', ha', hv'⟩ := hv.answered (codeOf_txn hc) ha
    exact ⟨_, .failed cmd k buf tx a m' (hv.seq ▸ hs) (hv.devAddr ▸ hc) ha' hb, hv'.finish _⟩
  | moved cmd k buf tx a m bs tx' hs hc ha hb hc' =>
    obtain ⟨m', ha', hv'⟩ := hv.answered (codeOf_txn hc) ha
    exact ⟨_, .moved cmd k buf tx a m' bs tx' (hv.seq ▸ hs) (hv.devAddr ▸ hc) ha' hb (hv.devAddr ▸ hc'),
      hv'.withSeq _⟩
  | returned cmd k buf tx a m bs v hs hc ha hb hc' =>
    obtain ⟨m', ha', hv'⟩ := hv.answered (codeOf_txn hc) ha
    exact ⟨_, .returned cmd k buf tx a m' bs v (hv.seq ▸ hs) (hv.devAddr ▸ hc) ha' hb (hv.devAddr ▸ hc'),
      hv'.finish _⟩

/-- Settles O56: the two states take steps of the same kind, for each kind of step. -/
theorem otherRegistersDoNotMatter : Obligations.OtherRegistersDoNotMatter := by
  intro s s' t hv h
  rcases step_next h with ⟨hs, hh, rfl⟩ | ⟨w, ws, hs, hh, hd, rfl⟩ | ⟨w, ws, i, hs, hh, hd, he⟩ |
    ⟨cmd, k, buf, i, hs, hd, he⟩
  · exact ⟨s', step_of_idle_nil (hv.seq ▸ hs) (hv.host ▸ hh), hv⟩
  · exact ⟨_, step_of_idle_illegal (hv.seq ▸ hs) (hv.host ▸ hh) hd, ((hv.withHost ws).record _).finish _⟩
  · obtain ⟨t', he', hv'⟩ := he.sameView (hv.withHost ws)
    exact ⟨t', (step_of_idle (hv.seq ▸ hs) (hv.host ▸ hh) hd).trans (exec_eq_next_iff.mpr he'), hv'⟩
  · obtain ⟨t', he', hv'⟩ := he.sameView hv
    exact ⟨t', (step_of_busy (hv.seq ▸ hs) hd).trans (exec_eq_next_iff.mpr he'), hv'⟩

end Sys2Proof.Machine

/-! PROOFS. The bus as the codec uses it: R43, the transactions it issues, and R50, the write of a read-modify-write that
another agent's write precedes. -/

namespace Sys2Proof.Machine

/-- R43 spelled out: the reads, the writes and the two blocks that `codecTxn` lets through. -/
theorem codecTxn_cases {d : DevAddr} {t : Txn} (h : codecTxn d t = true) :
    (∃ r, t = .rdB d r ∧ r ∈ ([0x2D, 0x2C, 0x28, 0x04] : List RegAddr)) ∨
    (∃ r v, t = .wrB d r v ∧ r ∈ ([0x2D, 0x2C, 0x28] : List RegAddr)) ∨
    t = .rdBlk d 0x06 2 ∨ t = .rdBlk d 0x08 9 := by
  obtain rfl := codecTxn_dev h
  cases t with
  | rdB d' r => exact .inl ⟨r, rfl, by simpa [codecTxn, Txn.dev, or_assoc] using h⟩
  | wrB d' r v => exact .inr (.inl ⟨r, v, rfl, by simpa [codecTxn, Txn.dev, or_assoc] using h⟩)
  | rdBlk d' r n => exact .inr (.inr (by simpa [codecTxn, Txn.dev] using h))

/-- Settles O46: a recorded transaction is one of a pseudocode, and a pseudocode issues only those of R43. -/
theorem transactionsStayInTheRegisterMap : Obligations.TransactionsStayInTheRegisterMap := by
  intro s t tx a h ht
  obtain ⟨cmd, k, buf, i, -, -, hc⟩ := step_txn_recorded h ht
  exact codecTxn_cases (codeOf_txn hc)

/-! ## The write of a read-modify-write -/

/-- A pseudocode that stands before a write after it read a byte returns once the write is served. -/
theorem writesByte_of_txn {i : Instr} {p : Byte} {reg : RegAddr} {v : Byte}
    (h : ∀ d, codeOf i d 1 [p] = .txn (.wrB d reg v)) : WritesByte i p reg v := by
  refine writesByte_of_code h fun d => ?_
  rcases codeOf_txn_at (h d) with ⟨hk, -⟩ | ⟨-, -, p', r', v', hbuf, -, hret, -⟩
  · cases hk
  · cases hbuf
    exact hret

/-- R103: BEGIN after it read STANDBY. -/
theorem writesByte_beginCmd {p : Byte} (h : standby p = true) :
    WritesByte .beginCmd p regPowerCtl (clearStandby p) :=
  writesByte_of_txn fun _ => if_pos h

/-- R104: END after it read measuring. -/
theorem writesByte_endCmd {p : Byte} (h : running p = true) : WritesByte .endCmd p regPowerCtl (setStandby p) :=
  writesByte_of_txn fun _ => if_pos h

/-- R125: SET_RANGE after its read. -/
theorem writesByte_setRange (a p : Byte) : WritesByte (.setRange a) p regRange (mergeRange p a) :=
  writesByte_of_txn fun _ => rfl

/-- R145: SET_FILTER after its read. -/
theorem writesByte_setFilter (a p : Byte) : WritesByte (.setFilter a) p regFilter (mergeFilter p a) :=
  writesByte_of_txn fun _ => rfl

/-! ## The lost update -/

/-- The environment's last write stands when its steps are taken. -/
theorem readReg_applyActs_last (acts : List RegWrite) (m : Memory) (d : DevAddr) (r : RegAddr) (v : Byte) :
    readReg (applyActs (acts ++ [⟨d, r, v⟩]) m) d r = v := by
  simp [applyActs]

/-- R50: a command that stands before its write takes no notice of what another agent just put there. -/
theorem WritesByte.racing_write_lost {i : Instr} {p : Byte} {reg : RegAddr} {v : Byte} (hw : WritesByte i p reg v)
    {s : State} {w : CmdWord} {acts : List RegWrite} {v2 : Byte} (hs : s.seq = .busy w 1 [p])
    (ht : s.nextTurn = ⟨acts ++ [⟨s.devAddr, reg, v2⟩], .serve⟩) :
    readReg s.afterActs.mem s.devAddr reg = v2 ∧
    ∃ t, exec i s = .next t ∧ t.seq = .idle ∧ t.trace.getLast? = some (.res (.ok .unit)) ∧
      readReg t.mem s.devAddr reg = v := by
  refine ⟨?_, _, (hw s w _ hs).1 ht, rfl, ?_, readReg_writeReg_same _ _ _ _⟩
  · rw [State.afterActs_mem, ht, readReg_applyActs_last]
  · simp [State.afterTxn]

/-- Settles O55: each of the four commands stands before the write of its merged byte, and a racing write is lost to
it. -/
theorem racingWriteIsLost : Obligations.RacingWriteIsLost := by
  intro s w v1 v2 acts hs i r v hi ht
  have hw : WritesByte i v1 r v := by
    rcases hi with ⟨rfl, h, rfl, rfl⟩ | ⟨rfl, h, rfl, rfl⟩ | ⟨a, rfl, -, rfl, rfl⟩ | ⟨a, rfl, -, rfl, rfl⟩
    · exact writesByte_beginCmd h
    · exact writesByte_endCmd (by simpa [running] using h)
    · exact writesByte_setRange a v1
    · exact writesByte_setFilter a v1
  exact hw.racing_write_lost hs ht

end Sys2Proof.Machine

/-! PROOFS. The encoding: R60 to R63, the command word and the opcode map; R61, the operand; R66 and R67, the
assembler. -/

namespace Sys2Proof.Machine

/-! ## The rows of the opcode map -/

/-- A row of a command without operand: its OP, and an ARG that must be 0x00 (R63). -/
theorem decode_append_of_plain {i : Instr} (h : i.takesOperand = false) (arg : Byte) :
    decode (opOf i ++ arg) = decodePlain arg i := by
  cases i
  case setRange | setFilter => cases h
  all_goals simp [decode, opOf]

/-- The row of SET_RANGE: every ARG (R63). -/
theorem decode_setRange (a : Byte) : decode ((0x11 : Byte) ++ a) = .command (.setRange a) := by
  simp [decode]

/-- The row of SET_FILTER: every ARG (R63). -/
theorem decode_setFilter (a : Byte) : decode ((0x21 : Byte) ++ a) = .command (.setFilter a) := by
  simp [decode]

/-- R60: a command without operand has ARG 0x00. -/
theorem argOf_of_plain {i : Instr} (h : i.takesOperand = false) : argOf i = 0 := by
  cases i
  case setRange | setFilter => cases h
  all_goals rfl

/-- Every command decodes from its own word (R62, R63). -/
theorem decode_encode (i : Instr) : decode (encode i) = .command i := by
  cases h : i.takesOperand with
  | false => rw [encode, decode_append_of_plain h, argOf_of_plain h, decodePlain_zero]
  | true =>
    cases i
    case setRange a => exact decode_setRange a
    case setFilter a => exact decode_setFilter a
    all_goals cases h

/-- Settles O1: the opcode map row by row, forwards and back. -/
theorem decodeAndEncodeAgree : Obligations.DecodeAndEncodeAgree :=
  ⟨decode_encode, fun _ _ => encode_of_decode⟩

theorem encode_injective : Function.Injective encode := fun i j h =>
  Decoded.command.inj (by rw [← decode_encode i, ← decode_encode j, h])

theorem isCommand_iff {w : CmdWord} : (decode w).isCommand = true ↔ ∃ i, decode w = .command i := by
  cases decode w <;> simp [Decoded.isCommand]

/-- The words of commands are exactly those that decode to one (R63). -/
theorem isCommand_iff_encode {w : CmdWord} : (decode w).isCommand = true ↔ ∃ i, encode i = w := by
  rw [isCommand_iff]
  constructor
  · rintro ⟨i, h⟩
    exact ⟨i, encode_of_decode h⟩
  · rintro ⟨i, rfl⟩
    exact ⟨i, decode_encode i⟩

/-! ## The count of command words -/

/-- The 11 commands without operand, in the order of R62. -/
def plainCommands : List Instr :=
  [.beginCmd, .endCmd, .isRunning, .getRange, .getFilter, .getStatus, .getTemperature, .getAxes, .getAxisX, .getAxisY,
    .getAxisZ]

theorem mem_plainCommands {i : Instr} : i ∈ plainCommands ↔ i.takesOperand = false := by
  cases i <;> simp [plainCommands, Instr.takesOperand]

/-- Every operand byte. -/
def operandBytes : List Byte := (List.finRange 256).map BitVec.ofFin

theorem mem_operandBytes (a : Byte) : a ∈ operandBytes := List.mem_map.mpr ⟨a.toFin, List.mem_finRange _, rfl⟩

theorem nodup_operandBytes : operandBytes.Nodup :=
  (List.nodup_finRange 256).map fun _ _ h => congrArg BitVec.toFin h

theorem length_operandBytes : operandBytes.length = 256 := by simp [operandBytes]

/-- Every command, each setter with every operand. -/
def allCommands : List Instr := plainCommands ++ operandBytes.map .setRange ++ operandBytes.map .setFilter

theorem mem_allCommands (i : Instr) : i ∈ allCommands := by
  cases i <;> simp [allCommands, plainCommands, mem_operandBytes]

theorem length_allCommands : allCommands.length = 523 := by
  simp [allCommands, plainCommands, length_operandBytes]

theorem nodup_allCommands : allCommands.Nodup := by
  have hplain : plainCommands.Nodup := by decide
  have hrange := nodup_operandBytes.map (f := Instr.setRange) fun _ _ h => Instr.setRange.inj h
  have hfilter := nodup_operandBytes.map (f := Instr.setFilter) fun _ _ h => Instr.setFilter.inj h
  refine List.nodup_append'.mpr ⟨List.nodup_append'.mpr ⟨hplain, hrange, ?_⟩, hfilter, ?_⟩ <;>
    simp [List.disjoint_left, plainCommands]

/-! ## The decoder's rows and their count -/

/-- R62: the OP of a command stands in the opcode map. -/
theorem opOf_mem (i : Instr) :
    opOf i ∈ ([0x01, 0x02, 0x03, 0x10, 0x11, 0x20, 0x21, 0x30, 0x31, 0x40, 0x41, 0x42, 0x43] : List Byte) := by
  cases i <;> simp [opOf]

theorem opField_encode (i : Instr) : opField (encode i) = opOf i := opField_append _ _

/-- A word with the OP of a command without operand is that command's word or none (R60, R63). -/
theorem eq_encode_of_opField {i : Instr} {w : CmdWord} (hi : i.takesOperand = false) (hop : opField w = opOf i)
    (h : (decode w).isCommand = true) : w = encode i := by
  rw [← word_of_fields w, hop] at h ⊢
  rw [decode_append_of_plain hi] at h
  by_cases harg : argField w = 0
  · rw [encode, argOf_of_plain hi, harg]
  · simp [decodePlain_of_ne i harg, Decoded.isCommand] at h

/-- Settles O2: the rows of commands without operand and of the setters, no command at any other OP, and the words of
all commands listed. -/
theorem decodeFollowsTheOpcodeMap : Obligations.DecodeFollowsTheOpcodeMap := by
  refine ⟨fun op i hrow => ?_, decode_setRange, decode_setFilter, fun op arg hop => Bool.eq_false_iff.mpr fun hc => ?_,
    allCommands.map encode, nodup_allCommands.map encode_injective, ?_, fun w => ?_⟩
  · obtain ⟨j, hj, hji⟩ := List.mem_map.mp (show (op, i) ∈ plainCommands.map fun j => (opOf j, j) from hrow)
    obtain ⟨rfl, rfl⟩ := Prod.mk.inj hji
    have hplain := decode_append_of_plain (mem_plainCommands.mp hj)
    exact ⟨hplain 0, fun arg harg => by rw [hplain, decodePlain_of_ne j harg]; rfl⟩
  · obtain ⟨i, hi⟩ := isCommand_iff_encode.mp hc
    have hopi : opOf i = op := by rw [← opField_encode, hi, opField_append]
    exact hop (hopi ▸ opOf_mem i)
  · rw [List.length_map, length_allCommands]
  · rw [isCommand_iff_encode, List.mem_map]
    simp [mem_allCommands]

/-- Settles O3: the words of the 13 commands, and eight words of no row. -/
theorem decodeKnownWords : Obligations.DecodeKnownWords :=
  ⟨decode_encode .beginCmd, decode_encode .endCmd, decode_encode .isRunning, decode_encode .getRange,
    decode_encode (.setRange 255), decode_encode .getFilter, decode_encode (.setFilter 5), decode_encode .getStatus,
    decode_encode .getTemperature, decode_encode .getAxes, decode_encode .getAxisX, decode_encode .getAxisY,
    decode_encode .getAxisZ, by decide⟩

/-! ## The operand of a host's call -/

theorem operandInRange_iff {v : Int} : operandInRange v = true ↔ 0 ≤ v ∧ v ≤ 255 := by
  simp [operandInRange]

/-- A host value from 0 to 255 is the byte of the same value (R61). -/
theorem operandOfHost_toNat (a : Byte) : operandOfHost a.toNat = some a := by
  have ha := a.isLt
  rw [operandOfHost, if_pos (operandInRange_iff.mpr (by omega)), BitVec.ofInt_natCast, BitVec.ofNat_toNat,
    BitVec.setWidth_eq]

/-- A host value outside 0 to 255 is refused (R61). -/
theorem operandOfHost_eq_none {v : Int} (h : v < 0 ∨ 255 < v) : operandOfHost v = none :=
  if_neg (by rw [operandInRange_iff]; omega)

/-- Settles O4: a host value in range is a byte's, any other is refused, and a word is fixed by an OP without operand. -/
theorem operandIsTheArgByte : Obligations.OperandIsTheArgByte := by
  refine ⟨fun v h0 h255 => ⟨BitVec.ofNat 8 v.toNat, ?_⟩, fun v hv => ?_, fun w w' i hd hi hc hop => ?_⟩
  · have hv : ((BitVec.ofNat 8 v.toNat).toNat : Int) = v := by rw [BitVec.toNat_ofNat]; omega
    have hhost := hv ▸ operandOfHost_toNat (BitVec.ofNat 8 v.toNat)
    exact ⟨hv, by rw [encodeCall, hhost]; rfl, decode_setRange _, by rw [encodeCall, hhost]; rfl, decode_setFilter _⟩
  · simp [encodeCall, operandOfHost_eq_none hv]
  · obtain rfl := encode_of_decode hd
    exact (eq_encode_of_opField hi (hop.symm.trans (opField_encode i)) hc).symm

/-! ## The assembler -/

/-- The encoder gives only words of commands (R61). -/
theorem encodeCall_eq_some {c : HostCall} {w : CmdWord} (h : encodeCall c = some w) : ∃ i, encode i = w := by
  cases c with
  | plain i =>
    simp only [encodeCall, Option.ite_none_left_eq_some, Option.some.injEq] at h
    exact ⟨i, h.2⟩
  | setRange v | setLowpassFilter v =>
    obtain ⟨a, -, ha⟩ := Option.map_eq_some_iff.mp h
    exact ⟨_, ha⟩

theorem asmSetter_eq_word {table : List (String × Int)} {call : Int → HostCall} {operand : Option (List Char)}
    {w : CmdWord} (h : asmSetter table call operand = .word w) : ∃ i, encode i = w := by
  unfold asmSetter at h
  split at h
  · cases h
  · split at h
    · cases h
    · split at h
      · rename_i w' hw
        cases h
        exact encodeCall_eq_some hw
      · cases h

theorem asmCommand_eq_word {head : Option AsmHead} {operand : Option (List Char)} {w : CmdWord}
    (h : asmCommand head operand = .word w) : ∃ i, encode i = w := by
  unfold asmCommand at h
  split at h
  · cases h
  · rename_i i
    split at h
    · exact ⟨i, Assembled.word.inj h⟩
    · cases h
  · exact asmSetter_eq_word h
  · exact asmSetter_eq_word h

/-- The assembler gives only words of commands (R66). -/
theorem assembleLine_eq_word {line : String} {w : CmdWord} (h : assembleLine line = .word w) : ∃ i, encode i = w := by
  unfold assembleLine at h
  split at h
  · split at h <;> exact asmCommand_eq_word h
  · exact asmCommand_eq_word h
  · cases h

/-- Settles O6: the assembler goes through the encoder, whose words decode. -/
theorem assembledWordsAreCommands : Obligations.AssembledWordsAreCommands := by
  intro line w h
  obtain ⟨i, rfl⟩ := assembleLine_eq_word h
  exact ⟨i, decode_encode i⟩

/-- Settles O5: 28 fixed lines, assembled by evaluation. -/
theorem symbolicOperandsAssemble : Obligations.SymbolicOperandsAssemble := by
  unfold Obligations.SymbolicOperandsAssemble
  decide

end Sys2Proof.Machine

/-! PROOFS. R69 and R161: the temperature code and the exactness of its difference from 1852. -/

namespace Sys2Proof.Machine

/-- R69: the code of two bytes. -/
theorem tempCode_toNat (b0 b1 : Byte) : (tempCode b0 b1).toNat = b0.toNat * 256 + b1.toNat := by
  rw [tempCode, BitVec.toNat_append, ← Nat.shiftLeft_add_eq_or_of_lt b1.isLt, Nat.shiftLeft_eq]

/-- Settles O33: the difference fits in 53 bits, so the rounding of `f64` changes nothing. -/
theorem temperatureCodeIsExact : Obligations.TemperatureCodeIsExact := by
  refine ⟨tempCode_toNat, fun t => ?_⟩
  have hbound : (1852 - (t.toNat : Int)).natAbs < 2 ^ 16 := by
    have := t.isLt
    omega
  have hfinite : 2 ^ 16 < 2 ^ 900 * 1 := by
    rw [Nat.mul_one]
    exact pow_lt_pow_right₀ one_lt_two (by decide)
  exact ⟨(f64_error Nat.one_pos (hbound.trans hfinite)).1, f64_int_exact (hbound.trans (by decide))⟩

end Sys2Proof.Machine

/-! PROOFS. R64: the codes that a command writes into RANGE and FILTER. -/

namespace Sys2Proof.Machine

/-- A merge puts the field's bits in as they are: none of the kept bits shows under the field's mask. -/
theorem merge_and_field (p : Byte) {keep field a : Byte} (hk : keep &&& field = 0) (ha : a &&& field = a) :
    ((p &&& keep) ||| a) &&& field = a := by
  have hp : (p &&& keep) &&& field = 0 := by
    rw [BitVec.and_assoc, hk]
    exact BitVec.and_zero
  rw [BitVec.or_comm, or_and_of_disjoint a hp, ha]

theorem and_range_field_of_validRange : ∀ {a : Byte}, validRange a = true → a &&& 0x03 = a := by decide

theorem and_filter_field_of_validFilter : ∀ {a : Byte}, validFilter a = true → a &&& 0x0F = a := by decide

/-- R121: a legal RANGE code stands in bits 1:0 once merged. -/
theorem mergeRange_and_field (p : Byte) {a : Byte} (h : validRange a = true) : mergeRange p a &&& 0x03 = a :=
  merge_and_field p rfl (and_range_field_of_validRange h)

/-- R141: a legal FILTER code stands in bits 3:0 once merged. -/
theorem mergeFilter_and_field (p : Byte) {a : Byte} (h : validFilter a = true) : mergeFilter p a &&& 0x0F = a :=
  merge_and_field p rfl (and_filter_field_of_validFilter h)

/-- A pseudocode that had a transaction first writes only legal codes (R125, R145). -/
theorem codeOf_write_legal {i : Instr} {d d' : DevAddr} {k : Nat} {p : Byte} {r : RegAddr} {v : Byte} {t0 : Txn}
    (h0 : codeOf i d 0 [] = .txn t0) (h : codeOf i d k [p] = .txn (.wrB d' r v)) :
    (r = regRange → validRange (v &&& 0x03) = true) ∧ (r = regFilter → validFilter (v &&& 0x0F) = true) := by
  obtain ⟨-, ⟨rfl, -, rfl, rfl⟩ | ⟨rfl, -, rfl, rfl⟩ | ⟨a, rfl, rfl, rfl⟩ | ⟨a, rfl, rfl, rfl⟩⟩ := codeOf_write h
  · exact ⟨fun hr => absurd hr (by decide), fun hr => absurd hr (by decide)⟩
  · exact ⟨fun hr => absurd hr (by decide), fun hr => absurd hr (by decide)⟩
  · have ha := codeOf_setter_start.1 h0
    exact ⟨fun _ => (mergeRange_and_field p ha).symm ▸ ha, fun hr => absurd hr (by decide)⟩
  · have ha := codeOf_setter_start.2 h0
    exact ⟨fun hr => absurd hr (by decide), fun _ => (mergeFilter_and_field p ha).symm ▸ ha⟩

/-- With the invariant, a step writes only legal codes: a write stands second in its pseudocode, so the command has had
a transaction. -/
theorem Inv.write_legal {s t : State} {d : DevAddr} {r : RegAddr} {v : Byte} {a : Answer} (hinv : Inv s)
    (h : step s = .next t) (hw : .txn (.wrB d r v) a ∈ t.newEvents s) :
    (r = regRange → validRange (v &&& 0x03) = true) ∧ (r = regFilter → validFilter (v &&& 0x0F) = true) := by
  obtain ⟨cmd, k, buf, i, hs, hd, hc⟩ := step_txn_recorded h hw
  obtain rfl : d = s.devAddr := codecTxn_dev (codeOf_txn hc)
  obtain ⟨i', -, -, es, hd', -, -, hlen, hans⟩ := hinv.sequencer cmd k buf hs
  obtain rfl : i' = i := Decoded.command.inj (hd'.symm.trans hd)
  rcases codeOf_txn_at hc with ⟨-, -, hne⟩ | ⟨rfl, -, p, -, -, rfl, -⟩
  · exact absurd rfl (hne r v)
  · obtain ⟨t0, -, -, hc0, -⟩ := hans.of_length_one hlen
    exact codeOf_write_legal hc0 hc

/-- Settles O52: the codes written are legal, and the reserved ones are not. -/
theorem reservedCodesAreNeverWritten : Obligations.ReservedCodesAreNeverWritten := by
  intro s t d v a hinv h
  refine ⟨fun hw hzero => ?_, fun hw => validFilter_iff.mp ((hinv.write_legal h hw).2 rfl)⟩
  have hlegal := (hinv.write_legal h hw).1 rfl
  rw [hzero] at hlegal
  cases hlegal

end Sys2Proof.Machine

/-! PROOFS. 40_power.md: R100 and R101, the STANDBY bit; R103 to R105, the three commands on it; R106 and R107, two of
them in a row. BEGIN and END are one command that brings STANDBY to a target bit, 0 for BEGIN and 1 for END, and is
reasoned about as one. -/

namespace Sys2Proof.Machine

/-! ## The STANDBY bit -/

theorem running_eq_not_standby (p : Byte) : running p = !standby p := rfl

/-- R101: clearing STANDBY, bit by bit. -/
theorem clearStandby_getLsbD (p : Byte) (j : Nat) : (clearStandby p).getLsbD j = (p.getLsbD j && decide (j ≠ 0)) := by
  have hmask : (0xFE : Byte) = ~~~1#8 := rfl
  rw [clearStandby, hmask, BitVec.getLsbD_and, BitVec.getLsbD_not, BitVec.getLsbD_one]
  by_cases hj : j < 8
  · simp [hj]
  · simp [BitVec.getLsbD_of_ge p j (by omega)]

/-- R101: setting STANDBY, bit by bit. -/
theorem setStandby_getLsbD (p : Byte) (j : Nat) : (setStandby p).getLsbD j = (p.getLsbD j || decide (j = 0)) := by
  have hmask : (0x01 : Byte) = 1#8 := rfl
  rw [setStandby, hmask, BitVec.getLsbD_or, BitVec.getLsbD_one]
  simp

/-- The merge of R101 that gives STANDBY the bit `target`. -/
def mergeStandby : Bool → Byte → Byte
  | false => clearStandby
  | true => setStandby

@[simp] theorem standby_mergeStandby (target : Bool) (p : Byte) : standby (mergeStandby target p) = target := by
  cases target
  · exact (clearStandby_getLsbD p 0).trans (Bool.and_false _)
  · exact (setStandby_getLsbD p 0).trans (Bool.or_true _)

theorem mergeStandby_getLsbD_of_ne_zero (target : Bool) (p : Byte) {j : Nat} (hj : j ≠ 0) :
    (mergeStandby target p).getLsbD j = p.getLsbD j := by
  cases target
  · simp [mergeStandby, clearStandby_getLsbD, hj]
  · simp [mergeStandby, setStandby_getLsbD, hj]

/-- A byte that has the bit already is not changed. -/
theorem mergeStandby_of_eq {target : Bool} {p : Byte} (h : standby p = target) : mergeStandby target p = p := by
  refine BitVec.eq_of_getLsbD_eq fun j _ => ?_
  by_cases hj : j = 0
  · subst hj
    exact (standby_mergeStandby target p).trans h.symm
  · exact mergeStandby_getLsbD_of_ne_zero target p hj

/-- Settles O13: the two merges, by their STANDBY bit and by their other bits. -/
theorem standbyFieldCodec : Obligations.StandbyFieldCodec := by
  refine ⟨fun p => ⟨Iff.rfl, iff_of_eq (Bool.not_eq_true' _)⟩,
    fun p => ⟨rfl, rfl, ?_, standby_mergeStandby true p, fun j hj => ?_⟩⟩
  · rw [running_eq_not_standby, Bool.not_eq_true']
    exact standby_mergeStandby false p
  · have hj : j ≠ 0 := Nat.ne_of_gt hj
    exact ⟨mergeStandby_getLsbD_of_ne_zero false p hj, mergeStandby_getLsbD_of_ne_zero true p hj⟩

/-! ## BEGIN and END as one command -/

/-- The command that brings STANDBY to `target`: R103 for 0, R104 for 1. -/
def powerInstr : Bool → Instr
  | false => .beginCmd
  | true => .endCmd

/-- The pseudocode after its read (R103, R104). -/
theorem codeOf_powerInstr (target : Bool) (d : DevAddr) (p : Byte) : codeOf (powerInstr target) d 1 [p] =
    if standby p = target then .ret .unit else .txn (.wrB d regPowerCtl (mergeStandby target p)) := by
  cases target
  · cases hp : standby p <;> simp [powerInstr, codeOf, codeBegin, mergeStandby, hp]
  · cases hp : standby p <;> simp [powerInstr, codeOf, codeEnd, running_eq_not_standby, mergeStandby, hp]

theorem accepts_powerInstr (target : Bool) : Accepts (powerInstr target) (encode (powerInstr target)) :=
  accepts_of_txn fun d => ⟨.rdB d regPowerCtl, by cases target <;> rfl⟩

/-- The read ends the command where it finds the bit as it is to be. -/
theorem readsByte_powerInstr (target : Bool) : ReadsByte (powerInstr target) regPowerCtl
    (fun w p => if standby p = target then .idle else .busy w 1 [p])
    (fun p => if standby p = target then [.res (.ok .unit)] else []) := by
  refine readsByte_of_code (fun d => by cases target <;> rfl) fun d p => ?_
  rw [codeOf_powerInstr]
  by_cases hp : standby p = target <;> simp [hp]

theorem writesByte_powerInstr {target : Bool} {p : Byte} (h : standby p ≠ target) :
    WritesByte (powerInstr target) p regPowerCtl (mergeStandby target p) :=
  writesByte_of_txn fun d => (codeOf_powerInstr target d p).trans (if_neg h)

/-- Settles O10: BEGIN is the command of target 0. -/
theorem beginStartsMeasurement : Obligations.BeginStartsMeasurement := by
  have hread := readsByte_powerInstr false
  simp only [← Bool.not_eq_true, ite_not] at hread
  exact ⟨accepts_powerInstr false, hread, fun _ hp => writesByte_beginCmd hp⟩

/-- Settles O11: END is the command of target 1. -/
theorem endStopsMeasurement : Obligations.EndStopsMeasurement :=
  ⟨accepts_powerInstr true, readsByte_powerInstr true,
    fun _ hp => writesByte_powerInstr (target := true) (Bool.eq_false_iff.mp hp)⟩

theorem accepts_isRunning : Accepts .isRunning (encode .isRunning) :=
  accepts_of_txn fun d => ⟨.rdB d regPowerCtl, rfl⟩

/-- R105: IS_RUNNING's one read ends it. -/
theorem readsByte_isRunning :
    ReadsByte .isRunning regPowerCtl (fun _ _ => .idle) (fun p => [.res (.ok (.bool (running p)))]) :=
  readsByte_of_code (fun _ => rfl) fun _ p => .inr ⟨.bool (running p), rfl, rfl, fun _ => rfl⟩

/-- Settles O12: the value is whether bit 0 is 0. -/
theorem isRunningReportsThePowerState : Obligations.IsRunningReportsThePowerState := by
  have hvalue (p : Byte) : running p = decide (standby p = false) := by simp [running_eq_not_standby]
  have hread := readsByte_isRunning
  simp only [hvalue] at hread
  exact ⟨accepts_isRunning, hread⟩

/-! ## A whole run of BEGIN or END -/

/-- How many transactions BEGIN or END issues after it read `p`, the read included. -/
def powerTxns (target : Bool) (p : Byte) : Nat := if standby p = target then 1 else 2

/-- What BEGIN or END records between its read of `p` and its result `Ok(())`: the write, if there is one. -/
def powerWrites (target : Bool) (d : DevAddr) (p : Byte) : List Event :=
  if standby p = target then [] else [.txn (.wrB d regPowerCtl (mergeStandby target p)) .done]

/-- What a whole run of BEGIN or END that reads `p` records. -/
def powerEvents (target : Bool) (d : DevAddr) (p : Byte) : List Event :=
  .cmd (encode (powerInstr target)) :: .txn (.rdB d regPowerCtl) (.byte p) :: powerWrites target d p ++
    [.res (.ok .unit)]

theorem powerTxns_bounds (target : Bool) (p : Byte) : 0 < powerTxns target p ∧ powerTxns target p ≤ 2 := by
  unfold powerTxns
  split <;> decide

theorem powerTxns_of_eq {target : Bool} {p : Byte} (h : standby p = target) : powerTxns target p = 1 := if_pos h

theorem powerWrites_of_eq {target : Bool} (d : DevAddr) {p : Byte} (h : standby p = target) :
    powerWrites target d p = [] := if_pos h

/-- One command, one result, and at most one write. -/
theorem countP_powerEvents (target : Bool) (d : DevAddr) (p : Byte) :
    (powerEvents target d p).countP Event.isCmd = 1 ∧ (powerEvents target d p).countP Event.isRes = 1 ∧
      (powerEvents target d p).countP Event.isWrite ≤ 1 := by
  unfold powerEvents powerWrites
  split <;> simp [List.countP_cons, Event.isCmd, Event.isRes, Event.isWrite]

theorem getLast?_append_powerEvents (es : List Event) (target : Bool) (d : DevAddr) (p : Byte) :
    (es ++ powerEvents target d p).getLast? = some (.res (.ok .unit)) := by
  rw [powerEvents, ← List.append_assoc, List.getLast?_concat]

/-- BEGIN or END presented to an `Idle` codec, with clean turns for its transactions: the command runs to `Ok(())`, and
POWER_CTL is the byte it read with STANDBY at the target. -/
theorem run_powerInstr {s : State} {target : Bool} {ws : List CmdWord} {p : Byte} (hs : s.seq = .idle)
    (hh : s.host = encode (powerInstr target) :: ws) (hp : readReg s.mem s.devAddr regPowerCtl = p)
    (hc : ∀ k < powerTxns target p, (s.turnAt k).clean s.devAddr regPowerCtl) :
    ∃ t : State, (∀ k, core.run (k + (powerTxns target p + 1)) s = core.run k t) ∧ t.devAddr = s.devAddr ∧
      t.host = ws ∧ (∀ k, t.turnAt k = s.turnAt (k + powerTxns target p)) ∧ t.seq = .idle ∧
      readReg t.mem s.devAddr regPowerCtl = mergeStandby target p ∧
      t.trace = s.trace ++ powerEvents target s.devAddr p := by
  have hclean : (s.turnAt 0).clean s.devAddr regPowerCtl := hc 0 (powerTxns_bounds target p).1
  obtain ⟨u, hrun, hdev, hhost, hturn, hseq, hmem, htrace⟩ :=
    run_read (decode_encode _) (accepts_powerInstr target) (readsByte_powerInstr target) hs hh hclean
  rw [hp] at hseq htrace
  have hread : readReg u.mem s.devAddr regPowerCtl = p := by rw [hmem, readReg_of_clean _ hclean, hp]
  by_cases hbit : standby p = target
  · rw [powerTxns_of_eq hbit]
    refine ⟨u, hrun, hdev, hhost, hturn, by simpa [hbit] using hseq, hread.trans (mergeStandby_of_eq hbit).symm, ?_⟩
    simpa [powerEvents, powerWrites_of_eq _ hbit, hbit] using htrace
  · have htxns : powerTxns target p = 2 := if_neg hbit
    rw [htxns] at hc ⊢
    rw [if_neg hbit] at hseq
    have hclean' : (u.turnAt 0).clean u.devAddr regPowerCtl := by
      rw [hturn, hdev]
      exact hc 1 (by omega)
    obtain ⟨t, hrun', hdev', hhost', hturn', hseq', hmem', htrace'⟩ :=
      run_write (decode_encode _) (writesByte_powerInstr hbit) hseq hclean'
    rw [hdev] at hmem' htrace'
    refine ⟨t, fun k => (hrun (k + 1)).trans (hrun' k), hdev'.trans hdev, hhost'.trans hhost,
      fun k => (hturn' k).trans (hturn (k + 1)), hseq', hmem', ?_⟩
    simpa [powerEvents, powerWrites, hbit, htrace] using htrace'

/-- R106 for either command: the second one finds the bit as it is to be. -/
theorem powerInstr_twice {s : State} {target : Bool} {ws : List CmdWord} (hs : s.seq = .idle)
    (hc : ∀ k < 3, (s.turnAt k).clean s.devAddr regPowerCtl)
    (hh : s.host = encode (powerInstr target) :: encode (powerInstr target) :: ws) :
    ∃ (n : Nat) (t : State) (first : List Event) (q : Byte), core.run n s = .next t ∧ t.seq = .idle ∧ t.host = ws ∧
      t.trace = s.trace ++ first ++
        [.cmd (encode (powerInstr target)), .txn (.rdB s.devAddr regPowerCtl) (.byte q), .res (.ok .unit)] ∧
      first.countP Event.isCmd = 1 ∧ first.countP Event.isRes = 1 ∧
      first.countP Event.isWrite ≤ 1 ∧ standby q = target := by
  set p := readReg s.mem s.devAddr regPowerCtl with hp
  have hle := (powerTxns_bounds target p).2
  obtain ⟨t, hrun, hdev, hhost, hturn, hseq, hmem, htrace⟩ := run_powerInstr hs hh hp.symm fun k hk => hc k (by omega)
  have hbit := standby_mergeStandby target p
  rw [← hdev] at hmem
  obtain ⟨u, hrun', -, hhost', -, hseq', -, htrace'⟩ := run_powerInstr hseq hhost hmem fun k hk => by
    rw [powerTxns_of_eq hbit] at hk
    rw [hturn, hdev]
    exact hc _ (by omega)
  obtain ⟨hcmd, hres, hwrite⟩ := countP_powerEvents target s.devAddr p
  refine ⟨_, u, _, _, (hrun _).trans (hrun' 0), hseq', hhost', ?_, hcmd, hres, hwrite, hbit⟩
  have hsecond : powerEvents target s.devAddr (mergeStandby target p) = [.cmd (encode (powerInstr target)),
      .txn (.rdB s.devAddr regPowerCtl) (.byte (mergeStandby target p)), .res (.ok .unit)] := by
    rw [powerEvents, powerWrites_of_eq _ hbit]
    rfl
  rw [htrace', htrace, hdev, hsecond]

/-- R107 for either command: IS_RUNNING, presented next, answers whether the target was 0. -/
theorem powerInstr_then_isRunning {s : State} {target : Bool} {ws : List CmdWord} (hs : s.seq = .idle)
    (hc : ∀ k < 3, (s.turnAt k).clean s.devAddr regPowerCtl)
    (hh : s.host = encode (powerInstr target) :: encode .isRunning :: ws) :
    ∃ n t u, core.run n s = .next t ∧ t.seq = .idle ∧ t.trace.getLast? = some (.res (.ok .unit)) ∧
      t.host = encode .isRunning :: ws ∧
      readReg t.mem s.devAddr regPowerCtl = mergeStandby target (readReg s.mem s.devAddr regPowerCtl) ∧
      core.run 2 t = .next u ∧ u.seq = .idle ∧ u.trace.getLast? = some (.res (.ok (.bool !target))) := by
  set p := readReg s.mem s.devAddr regPowerCtl with hp
  have hle := (powerTxns_bounds target p).2
  obtain ⟨t, hrun, hdev, hhost, hturn, hseq, hmem, htrace⟩ := run_powerInstr hs hh hp.symm fun k hk => hc k (by omega)
  have hclean : (t.turnAt 0).clean t.devAddr regPowerCtl := by
    rw [hturn, hdev]
    exact hc _ (by omega)
  obtain ⟨u, hrun', -, -, -, hseq', -, htrace'⟩ :=
    run_read (decode_encode _) accepts_isRunning readsByte_isRunning hseq hhost hclean
  refine ⟨_, t, u, hrun 0, hseq, htrace ▸ getLast?_append_powerEvents .., hhost, hmem, hrun' 0, hseq', ?_⟩
  simp [htrace', hdev, hmem, running_eq_not_standby]

/-- Settles O14: BEGIN and END are the two targets. -/
theorem secondBeginOrEndWritesNothing : Obligations.SecondBeginOrEndWritesNothing := by
  intro s ws hs hc w target hw hh
  obtain rfl : w = encode (powerInstr target) := by rcases hw with ⟨rfl, rfl⟩ | ⟨rfl, rfl⟩ <;> rfl
  exact powerInstr_twice hs hc hh

/-- Settles O15: BEGIN and END are the two targets. -/
theorem powerCommandsSetTheState : Obligations.PowerCommandsSetTheState := fun _ _ hs hc =>
  ⟨powerInstr_then_isRunning (target := false) hs hc, powerInstr_then_isRunning (target := true) hs hc⟩

end Sys2Proof.Machine

/-! PROOFS. The nine commands that only read: none of their transactions is a write, so none stores. -/

namespace Sys2Proof.Machine

/-- A command of one transaction issues no write: a write stands second in its pseudocode. -/
theorem codeOf_txn_ne_wrB {i : Instr} {d : DevAddr} {k : Nat} {buf : List Byte} {t : Txn} (hi : maxTxns i = 1)
    (h : codeOf i d k buf = .txn t) (d' : DevAddr) (r : RegAddr) (v : Byte) : t ≠ .wrB d' r v := by
  rintro rfl
  obtain rfl : d' = d := codecTxn_dev (codeOf_txn h)
  rcases codeOf_txn_at h with ⟨-, -, hne⟩ | ⟨-, hmax, -⟩
  · exact hne r v rfl
  · omega

/-- A transaction that is no write leaves the register space as it is, whatever the answer (R51, R56, R57). -/
theorem answerTxn_mem_of_ne_wrB {draw : Draw} {t : Txn} {m m' : Memory} {a : Answer} (ht : ∀ d r v, t ≠ .wrB d r v)
    (h : answerTxn draw t m = some (a, m')) : m' = m := by
  cases t with
  | wrB d r v => exact absurd rfl (ht d r v)
  | rdB d r => cases draw <;> simp_all [answerTxn, serveTxn, failTxn, badLengthTxn]
  | rdBlk d r n =>
    cases draw with
    | badLength bs =>
      simp only [answerTxn, badLengthTxn, serveTxn] at h
      split at h <;> simp_all
    | wait | serve | fail => simp_all [answerTxn, serveTxn, failTxn]

/-- A step of a command of one transaction records no write. -/
theorem ExecStep.countP_isWrite {i : Instr} {s t : State} (h : ExecStep i s t) (hi : maxTxns i = 1) :
    (t.newEvents s).countP Event.isWrite = 0 := by
  refine List.countP_eq_zero.mpr fun e he hw => ?_
  match e, hw with
  | .txn (.wrB d r v) a, _ =>
    obtain ⟨cmd, k, buf, -, hc⟩ := h.txn_recorded he
    exact codeOf_txn_ne_wrB hi hc d r v rfl

/-- A step of a command of one transaction stores nothing: an acceptance keeps the register space, a transaction keeps
it as the environment's steps left it. -/
theorem ExecStep.mem_of_reading {i : Instr} {s t : State} (h : ExecStep i s t) (hi : maxTxns i = 1) :
    t.mem = s.mem ∨ t.mem = applyActs s.nextTurn.acts s.mem := by
  rw [← State.afterActs_mem]
  cases h with
  | accepted | rejected => exact .inl rfl
  | waiting => exact .inr rfl
  | failed cmd k buf tx a m hs hc ha | moved cmd k buf tx a m bs tx' hs hc ha
  | returned cmd k buf tx a m bs v hs hc ha => exact .inr (answerTxn_mem_of_ne_wrB (codeOf_txn_ne_wrB hi hc) ha)

/-- Settles O54: each of the nine issues one transaction. -/
theorem readingCommandsStoreNothing : Obligations.ReadingCommandsStoreNothing := by
  intro i s t hi h
  have hone : maxTxns i = 1 := by
    simp only [List.mem_cons, List.not_mem_nil, or_false] at hi
    rcases hi with rfl | rfl | rfl | rfl | rfl | rfl | rfl | rfl | rfl <;> rfl
  exact ⟨(exec_next h).countP_isWrite hone, (exec_next h).mem_of_reading hone⟩

end Sys2Proof.Machine

/-! PROOFS. A setter and the getter of the same field in a row: what the round trips of RANGE and FILTER share. -/

namespace Sys2Proof.Machine

/-- A command that reads a register and writes the read byte back changed, presented to an `Idle` codec with clean turns
for its two transactions, runs to `Ok(())` in three steps. -/
theorem run_readModifyWrite {s : State} {i : Instr} {w : CmdWord} {ws : List CmdWord} {reg : RegAddr}
    {merge : Byte → Byte} (hd : decode w = .command i) (ha : Accepts i w)
    (hr : ReadsByte i reg (fun w b => .busy w 1 [b]) fun _ => []) (hw : ∀ b, WritesByte i b reg (merge b))
    (hs : s.seq = .idle) (hh : s.host = w :: ws) (hc : ∀ k < 2, (s.turnAt k).clean s.devAddr reg) :
    ∃ t : State, (∀ k, core.run (k + 3) s = core.run k t) ∧ t.devAddr = s.devAddr ∧ t.host = ws ∧
      (∀ k, t.turnAt k = s.turnAt (k + 2)) ∧ t.seq = .idle ∧
      readReg t.mem s.devAddr reg = merge (readReg s.mem s.devAddr reg) := by
  obtain ⟨u, hrun, hdev, hhost, hturn, hseq, -, -⟩ := run_read hd ha hr hs hh (hc 0 (by decide))
  have hclean : (u.turnAt 0).clean u.devAddr reg := by
    rw [hturn, hdev]
    exact hc 1 (by decide)
  obtain ⟨t, hrun', hdev', hhost', hturn', hseq', hmem', -⟩ := run_write hd (hw _) hseq hclean
  rw [hdev] at hmem'
  exact ⟨t, fun k => (hrun (k + 1)).trans (hrun' k), hdev'.trans hdev, hhost'.trans hhost,
    fun k => (hturn' k).trans (hturn (k + 1)), hseq', hmem'⟩

/-- R126 and R146 for any setter and getter of one register: the getter's value is that of the byte the setter wrote,
and the register holds that byte at the end. -/
theorem run_set_then_get {s : State} {setter getter : Instr} {w w' : CmdWord} {ws : List CmdWord} {reg : RegAddr}
    {merge : Byte → Byte} {value : Byte → Value} (hd : decode w = .command setter) (ha : Accepts setter w)
    (hr : ReadsByte setter reg (fun w b => .busy w 1 [b]) fun _ => []) (hw : ∀ b, WritesByte setter b reg (merge b))
    (hd' : decode w' = .command getter) (ha' : Accepts getter w')
    (hr' : ReadsByte getter reg (fun _ _ => .idle) fun b => [.res (.ok (value b))])
    (hs : s.seq = .idle) (hh : s.host = w :: w' :: ws) (hc : ∀ k < 3, (s.turnAt k).clean s.devAddr reg) :
    ∃ t, core.run 5 s = .next t ∧ t.seq = .idle ∧ t.host = ws ∧
      t.trace.getLast? = some (.res (.ok (value (merge (readReg s.mem s.devAddr reg))))) ∧
      readReg t.mem s.devAddr reg = merge (readReg s.mem s.devAddr reg) := by
  obtain ⟨u, hrun, hdev, hhost, hturn, hseq, hmem⟩ :=
    run_readModifyWrite hd ha hr hw hs hh fun k hk => hc k (by omega)
  have hclean : (u.turnAt 0).clean u.devAddr reg := by
    rw [hturn, hdev]
    exact hc 2 (by decide)
  obtain ⟨t, hrun', -, hhost', -, hseq', hmem', htrace'⟩ := run_read hd' ha' hr' hseq hhost hclean
  rw [hdev] at hclean htrace'
  refine ⟨t, (hrun 2).trans (hrun' 0), hseq', hhost', ?_, ?_⟩
  · simp [htrace', hmem]
  · rw [hmem', readReg_of_clean _ hclean, hmem]

end Sys2Proof.Machine

/-! PROOFS. 41_range.md: R121 to R123, the RANGE field; R124 and R125, its two commands; R126, the one after the
other. -/

namespace Sys2Proof.Machine

/-! ## The RANGE field -/

/-- The low `k` bits of a byte cleared and a value below `2 ^ k` put in: the merge of a field, as arithmetic. -/
theorem merge_toNat (b : Byte) {c : Byte} {k : Nat} (h : c.toNat < 2 ^ k) :
    ((b &&& (BitVec.allOnes 8 <<< k)) ||| c).toNat = b.toNat / 2 ^ k * 2 ^ k + c.toNat := by
  have hfit : b.toNat >>> k <<< k < 2 ^ 8 := by
    rw [Nat.shiftLeft_eq, Nat.shiftRight_eq_div_pow]
    exact (Nat.div_mul_le_self _ _).trans_lt b.isLt
  rw [← BitVec.shiftLeft_ushiftRight, BitVec.toNat_or, BitVec.toNat_shiftLeft, BitVec.toNat_ushiftRight,
    Nat.mod_eq_of_lt hfit, ← Nat.shiftLeft_add_eq_or_of_lt h, Nat.shiftLeft_eq, Nat.shiftRight_eq_div_pow]

/-- R123 as a range of numbers. -/
theorem validRange_iff_toNat {a : Byte} : validRange a = true ↔ 1 ≤ a.toNat ∧ a.toNat ≤ 3 := by
  simp only [validRange_iff, List.mem_cons, List.not_mem_nil, or_false, BitVec.toNat_eq, BitVec.ofNat_eq_ofNat,
    BitVec.toNat_ofNat]
  omega

/-- R122: the code is the low 2 bits. -/
theorem decodeRange_eq (b : Byte) : decodeRange b = b.extractLsb' 0 2 := by
  have hmask : (0x03 : Byte).setWidth 2 = BitVec.allOnes 2 := rfl
  rw [decodeRange, BitVec.setWidth_and, hmask, BitVec.and_allOnes, BitVec.setWidth_eq_extractLsb' (by decide)]

/-- R121 with R122: a legal code merged is the code read back. -/
theorem decodeRange_mergeRange (b : Byte) {a : Byte} (h : validRange a = true) :
    decodeRange (mergeRange b a) = a.extractLsb' 0 2 := by
  rw [decodeRange, mergeRange_and_field b h, BitVec.setWidth_eq_extractLsb' (by decide)]

/-- Settles O20: validation, decode and merge, each as arithmetic. -/
theorem rangeFieldCodec : Obligations.RangeFieldCodec := by
  refine ⟨fun a => validRange_iff_toNat, fun b => ?_, fun b c _ hc => ⟨rfl, merge_toNat b (k := 2) ?_⟩⟩
  · rw [decodeRange_eq]
    exact BitVec.extractLsb'_toNat 0 2 b
  · omega

/-! ## GET_RANGE and SET_RANGE -/

theorem accepts_getRange : Accepts .getRange (encode .getRange) :=
  accepts_of_txn fun d => ⟨.rdB d regRange, rfl⟩

/-- R124: GET_RANGE's one read ends it. -/
theorem readsByte_getRange :
    ReadsByte .getRange regRange (fun _ _ => .idle) fun b => [.res (.ok (.rangeCode (decodeRange b)))] :=
  readsByte_of_code (fun _ => rfl) fun _ b => .inr ⟨.rangeCode (decodeRange b), rfl, rfl, fun _ => rfl⟩

/-- R125: SET_RANGE reads RANGE first where its operand is legal. -/
theorem codeOf_setRange_of_valid {a : Byte} (h : validRange a = true) (d : DevAddr) :
    codeOf (.setRange a) d 0 [] = .txn (.rdB d regRange) := if_pos h

/-- R125: SET_RANGE does nothing else where its operand is illegal. -/
theorem codeOf_setRange_of_invalid {a : Byte} (h : ¬ validRange a = true) (d : DevAddr) :
    codeOf (.setRange a) d 0 [] = .raise .invalidArgument := if_neg h

theorem accepts_setRange {a : Byte} (h : validRange a = true) : Accepts (.setRange a) (encode (.setRange a)) :=
  accepts_of_txn fun d => ⟨_, codeOf_setRange_of_valid h d⟩

/-- R125: after its read SET_RANGE always stands before its write. -/
theorem readsByte_setRange {a : Byte} (h : validRange a = true) :
    ReadsByte (.setRange a) regRange (fun w b => .busy w 1 [b]) fun _ => [] :=
  readsByte_of_code (codeOf_setRange_of_valid h) fun d b =>
    .inl ⟨.wrB d regRange (mergeRange b a), rfl, rfl, fun _ => rfl⟩

/-- Settles O16: the code returned is the low 2 bits of the byte read. -/
theorem getRangeReturnsTheCode : Obligations.GetRangeReturnsTheCode := by
  have hread := readsByte_getRange
  simp only [decodeRange_eq] at hread
  exact ⟨accepts_getRange, hread⟩

/-- Settles O17: the operand decides whether the pseudocode raises or reads; the write follows every served read. -/
theorem setRangeReplacesTheCode : Obligations.SetRangeReplacesTheCode := by
  refine ⟨fun a ha => ?_, fun a ha => ?_⟩
  · exact rejectsArgument_of_raise (codeOf_setRange_of_invalid (mt validRange_iff.mp ha))
  · have hvalid := validRange_iff.mpr ha
    exact ⟨accepts_setRange hvalid, readsByte_setRange hvalid, writesByte_setRange a⟩

/-- Settles O22: the getter decodes the merged byte, whose field is the code set and whose other bits were kept. -/
theorem rangeRoundTrip : Obligations.RangeRoundTrip := by
  refine ⟨fun s ws a hs ha hc hh => ?_, fun s ws a hs ha hh => ?_⟩
  · have hvalid := validRange_iff.mpr ha
    obtain ⟨t, hrun, hseq, hhost, hlast, hmem⟩ :=
      run_set_then_get (decode_setRange a) (accepts_setRange hvalid) (readsByte_setRange hvalid)
        (writesByte_setRange a) (decode_encode _) accepts_getRange readsByte_getRange hs hh hc
    rw [decodeRange_mergeRange _ hvalid] at hlast
    exact ⟨t, hrun, hseq, hhost, hlast, (congrArg (· &&& 0xFC) hmem).trans (mergeRange_and_mask _ hvalid)⟩
  · exact step_rejectsArgument hs hh (decode_setRange a) (codeOf_setRange_of_invalid (mt validRange_iff.mp ha))

end Sys2Proof.Machine

/-! PROOFS. 42_filter.md: R141 to R143, the LPF field, and R147, its labels; R144 and R145, its two commands; R146, the
one after the other. -/

namespace Sys2Proof.Machine

/-! ## The LPF field -/

/-- R142: the code is the low 4 bits. -/
theorem decodeFilter_eq (b : Byte) : decodeFilter b = b.extractLsb' 0 4 := by
  have hmask : (0x0F : Byte).setWidth 4 = BitVec.allOnes 4 := rfl
  rw [decodeFilter, BitVec.setWidth_and, hmask, BitVec.and_allOnes, BitVec.setWidth_eq_extractLsb' (by decide)]

/-- R141 with R142: a legal code merged is the code read back. -/
theorem decodeFilter_mergeFilter (b : Byte) {a : Byte} (h : validFilter a = true) :
    decodeFilter (mergeFilter b a) = a.extractLsb' 0 4 := by
  rw [decodeFilter, mergeFilter_and_field b h, BitVec.setWidth_eq_extractLsb' (by decide)]

/-- Settles O21: validation, decode and merge, each as arithmetic. -/
theorem filterFieldCodec : Obligations.FilterFieldCodec := by
  refine ⟨fun a => validFilter_iff, fun b => ?_, fun b c hc => ⟨rfl, merge_toNat b (k := 4) ?_⟩⟩
  · rw [decodeFilter_eq]
    exact BitVec.extractLsb'_toNat 0 4 b
  · omega

/-- Settles O24: one row of R140's table for each code up to 10, and the last case of R147 for the others. -/
theorem filterLabelTable : Obligations.FilterLabelTable := by
  refine ⟨fun c hc => ?_, fun c hc => ?_⟩
  · unfold filterLabel
    interval_cases c.toNat <;> rfl
  · have hlt : c.toNat < 16 := c.isLt
    unfold filterLabel
    interval_cases c.toNat <;> rfl

/-! ## GET_FILTER and SET_FILTER -/

theorem accepts_getFilter : Accepts .getFilter (encode .getFilter) :=
  accepts_of_txn fun d => ⟨.rdB d regFilter, rfl⟩

/-- R144: GET_FILTER's one read ends it. -/
theorem readsByte_getFilter :
    ReadsByte .getFilter regFilter (fun _ _ => .idle) fun b => [.res (.ok (.filterCode (decodeFilter b)))] :=
  readsByte_of_code (fun _ => rfl) fun _ b => .inr ⟨.filterCode (decodeFilter b), rfl, rfl, fun _ => rfl⟩

/-- R145: SET_FILTER reads FILTER first where its operand is legal. -/
theorem codeOf_setFilter_of_valid {a : Byte} (h : validFilter a = true) (d : DevAddr) :
    codeOf (.setFilter a) d 0 [] = .txn (.rdB d regFilter) := if_pos h

/-- R145: SET_FILTER does nothing else where its operand is illegal. -/
theorem codeOf_setFilter_of_gt {a : Byte} (h : 10 < a.toNat) (d : DevAddr) :
    codeOf (.setFilter a) d 0 [] = .raise .invalidArgument :=
  if_neg (mt validFilter_iff.mp (Nat.not_le.mpr h))

theorem accepts_setFilter {a : Byte} (h : validFilter a = true) : Accepts (.setFilter a) (encode (.setFilter a)) :=
  accepts_of_txn fun d => ⟨_, codeOf_setFilter_of_valid h d⟩

/-- R145: after its read SET_FILTER always stands before its write. -/
theorem readsByte_setFilter {a : Byte} (h : validFilter a = true) :
    ReadsByte (.setFilter a) regFilter (fun w b => .busy w 1 [b]) fun _ => [] :=
  readsByte_of_code (codeOf_setFilter_of_valid h) fun d b =>
    .inl ⟨.wrB d regFilter (mergeFilter b a), rfl, rfl, fun _ => rfl⟩

/-- Settles O18: the code returned is the low 4 bits of the byte read. -/
theorem getFilterReturnsTheCode : Obligations.GetFilterReturnsTheCode := by
  have hread := readsByte_getFilter
  simp only [decodeFilter_eq] at hread
  exact ⟨accepts_getFilter, hread⟩

/-- Settles O19: the operand decides whether the pseudocode raises or reads; the write follows every served read. -/
theorem setFilterReplacesTheCode : Obligations.SetFilterReplacesTheCode := by
  refine ⟨fun a ha => rejectsArgument_of_raise (codeOf_setFilter_of_gt ha), fun a ha => ?_⟩
  have hvalid := validFilter_iff.mpr ha
  exact ⟨accepts_setFilter hvalid, readsByte_setFilter hvalid, writesByte_setFilter a⟩

/-- Settles O23: the getter decodes the merged byte, whose field is the code set and whose other bits were kept. -/
theorem filterRoundTrip : Obligations.FilterRoundTrip := by
  refine ⟨fun s ws a hs ha hc hh => ?_, fun s ws a hs ha hh => ?_⟩
  · have hvalid := validFilter_iff.mpr ha
    obtain ⟨t, hrun, hseq, hhost, hlast, hmem⟩ :=
      run_set_then_get (decode_setFilter a) (accepts_setFilter hvalid) (readsByte_setFilter hvalid)
        (writesByte_setFilter a) (decode_encode _) accepts_getFilter readsByte_getFilter hs hh hc
    rw [decodeFilter_mergeFilter _ hvalid] at hlast
    exact ⟨t, hrun, hseq, hhost, hlast, (congrArg (· &&& 0xF0) hmem).trans (mergeFilter_and_mask _ hvalid)⟩
  · exact step_rejectsArgument hs hh (decode_setFilter a) (codeOf_setFilter_of_gt ha)

end Sys2Proof.Machine

/-! PROOFS. 43_status_temperature.md: R162 and R163, the two commands; R164, the fixed point of the formula; R161, how the
rounded temperature falls. For the last, the exact value of the formula falls by 1 / 9.05 from each code to the next, and
each rounding moves the value it rounds by at most 2^-33, as all of them are below 2^20. -/

namespace Sys2Proof.Machine

/-! ## GET_STATUS and GET_TEMPERATURE -/

theorem accepts_getStatus : Accepts .getStatus (encode .getStatus) :=
  accepts_of_txn fun d => ⟨.rdB d regStatus, rfl⟩

/-- R162: GET_STATUS's one read ends it. -/
theorem readsByte_getStatus :
    ReadsByte .getStatus regStatus (fun _ _ => .idle) fun b => [.res (.ok (.bool (dataReady b)))] :=
  readsByte_of_code (fun _ => rfl) fun _ b => .inr ⟨.bool (dataReady b), rfl, rfl, fun _ => rfl⟩

/-- Settles O25: the value is bit 0 of the byte read. -/
theorem getStatusReportsDataReady : Obligations.GetStatusReportsDataReady :=
  ⟨accepts_getStatus, readsByte_getStatus⟩

theorem accepts_getTemperature : Accepts .getTemperature (encode .getTemperature) :=
  accepts_of_txn fun d => ⟨.rdBlk d regTemp 2, rfl⟩

/-- R46: the block at TEMP is the registers 0x06 and 0x07. -/
theorem readRegs_temp (m : Memory) (d : DevAddr) :
    readRegs m d regTemp 2 = [readReg m d 0x06, readReg m d 0x07] := rfl

/-- R163: GET_TEMPERATURE's one block read ends it. -/
theorem readsBlock_getTemperature : ReadsBlock .getTemperature regTemp [0x06, 0x07] fun r =>
    .f64 (tempCelsius (tempCode (r 0x06) (r 0x07))) :=
  readsBlock_of_code (fun _ => rfl) readRegs_temp fun _ _ => rfl

/-- Settles O26: the code converted is the two bytes of the block, the first one high. -/
theorem getTemperatureConvertsTheCode : Obligations.GetTemperatureConvertsTheCode := by
  have hread := readsBlock_getTemperature
  simp only [tempCelsius, tempCode_toNat] at hread
  exact ⟨accepts_getTemperature, hread⟩

/-! ## The fixed point of the formula -/

/-- R12: `F64(9.05)`. -/
theorem f64_9_05_bits : f64_9_05 = 0x402219999999999A := by decide

/-- R12: `F64(19.21)`. -/
theorem f64_19_21_bits : f64_19_21 = 0x403335C28F5C28F6 := by decide

/-- R164: the quotient of +0 is +0. -/
theorem fdiv_zero_9_05 : fdiv 0x0000000000000000 0x402219999999999A = 0x0000000000000000 := by decide +kernel

/-- R164: +0 changes nothing in the sum. -/
theorem fadd_zero_19_21 : fadd 0x0000000000000000 0x403335C28F5C28F6 = 0x403335C28F5C28F6 := by decide +kernel

/-- R164: the temperature at the code 1852. -/
theorem tempCelsius_1852 : tempCelsius 1852 = 0x403335C28F5C28F6 := by
  have hdiff : f64 (1852 - ((1852 : BitVec 16).toNat : Int)) 1 = 0x0000000000000000 := f64_zero 1
  rw [tempCelsius, hdiff, f64_9_05_bits, f64_19_21_bits, fdiv_zero_9_05, fadd_zero_19_21]

/-- Settles O32: the value at 1852 comes from the intermediate ones, the value at 0 by evaluation. -/
theorem temperatureFixedPoint : Obligations.TemperatureFixedPoint :=
  ⟨f64_zero 1, f64_9_05_bits, f64_19_21_bits, fdiv_zero_9_05, fadd_zero_19_21, tempCelsius_1852, by decide +kernel⟩

/-! ## Rounding, in degrees -/

/-- The rational that a finite value stands for. -/
def f64Value (x : F64) : ℚ := f64Units x / f64One

theorem f64One_cast : ((f64One : Nat) : ℚ) = 2 ^ 1074 := by
  rw [f64One, Nat.cast_pow, Nat.cast_ofNat]

theorem two_pow_32_le_f64One : (2 : ℚ) ^ 32 ≤ f64One := by
  rw [f64One_cast]
  exact pow_le_pow_right₀ one_le_two (by decide)

theorem f64One_pos : (0 : ℚ) < f64One := lt_of_lt_of_le (by positivity) two_pow_32_le_f64One

theorem f64Value_mul_f64One (x : F64) : f64Value x * f64One = f64Units x :=
  div_mul_cancel₀ _ f64One_pos.ne'

/-- A fraction of at most 2^20 is far below the largest finite value. -/
theorem lt_two_pow_900_mul {a b : Nat} (hb : 0 < b) (h : (a / b : ℚ) ≤ 2 ^ 20) : a < 2 ^ 900 * b := by
  have hle : a ≤ 2 ^ 20 * b := by
    rw [div_le_iff₀ (by exact_mod_cast hb)] at h
    exact_mod_cast h
  have hpow : 2 ^ 20 < 2 ^ 900 := pow_lt_pow_right₀ one_lt_two (by decide)
  exact hle.trans_lt (Nat.mul_lt_mul_of_pos_right hpow hb)

/-- Half a unit in the last place of a value of at most 2^20 is at most 2^-33. -/
theorem abs_f64Value_sub_le {x : F64} {v : ℚ} (hv : |v| ≤ 2 ^ 20)
    (h : |(f64Units x : ℚ) - v * (f64One : Nat)| ≤ max (|v * (f64One : Nat)| / 2 ^ 53) (1 / 2)) :
    |f64Value x - v| ≤ 1 / 2 ^ 33 := by
  have hone := two_pow_32_le_f64One
  have hpos := f64One_pos
  rw [← f64Value_mul_f64One, ← sub_mul, abs_mul, abs_mul, abs_of_pos hpos] at h
  generalize ((f64One : Nat) : ℚ) = w at h hone hpos
  refine le_of_mul_le_mul_right (h.trans (max_le ?_ ?_)) hpos
  · calc |v| * w / 2 ^ 53 ≤ 2 ^ 20 * w / 2 ^ 53 := by gcongr
      _ = 1 / 2 ^ 33 * w := by ring
  · linarith

/-- `f64` of a fraction of at most 2^20. -/
theorem f64Value_f64 {n : Int} {d : Nat} (hd : 0 < d) (hb : |(n / d : ℚ)| ≤ 2 ^ 20) :
    f64IsFinite (f64 n d) = true ∧ |f64Value (f64 n d) - n / d| ≤ 1 / 2 ^ 33 := by
  have hlt : n.natAbs < 2 ^ 900 * d := lt_two_pow_900_mul hd (by
    rwa [abs_div, Nat.abs_cast, ← Int.cast_abs, ← Nat.cast_natAbs] at hb)
  obtain ⟨hfin, herr⟩ := f64_error hd hlt
  rw [mul_div_right_comm, ← f64One_cast] at herr
  exact ⟨hfin, abs_f64Value_sub_le hb herr⟩

/-- `fadd` where the sum is of at most 2^20. -/
theorem f64Value_fadd {x y : F64} (hx : f64IsFinite x = true) (hy : f64IsFinite y = true)
    (hb : |f64Value x + f64Value y| ≤ 2 ^ 20) :
    f64IsFinite (fadd x y) = true ∧ |f64Value (fadd x y) - (f64Value x + f64Value y)| ≤ 1 / 2 ^ 33 := by
  have hsum : f64Value x + f64Value y = ((f64Units x + f64Units y : Int) : ℚ) / (f64One : Nat) := by
    rw [f64Value, f64Value, ← add_div, Int.cast_add]
  have hlt : (f64Units x + f64Units y).natAbs < 2 ^ 900 * f64One :=
    lt_two_pow_900_mul (by exact_mod_cast f64One_pos) (by
      rwa [hsum, abs_div, Nat.abs_cast, ← Int.cast_abs, ← Nat.cast_natAbs] at hb)
  obtain ⟨hfin, herr⟩ := fadd_error hx hy hlt
  rw [← f64Value_mul_f64One x, ← f64Value_mul_f64One y, ← add_mul] at herr
  exact ⟨hfin, abs_f64Value_sub_le hb herr⟩

theorem natAbs_f64Units (x : F64) : (f64Units x).natAbs = f64Mag x := by
  unfold f64Units
  split <;> simp

/-- `fdiv` where the quotient is of at most 2^20. -/
theorem f64Value_fdiv {x y : F64} (hx : f64IsFinite x = true) (hy : f64IsFinite y = true) (hy0 : f64Value y ≠ 0)
    (hb : |f64Value x / f64Value y| ≤ 2 ^ 20) :
    f64IsFinite (fdiv x y) = true ∧ |f64Value (fdiv x y) - f64Value x / f64Value y| ≤ 1 / 2 ^ 33 := by
  have hquot : f64Value x / f64Value y = (f64Units x : ℚ) / f64Units y :=
    div_div_div_cancel_right₀ f64One_pos.ne' _ _
  have hmag : f64Mag y ≠ 0 := fun h => hy0 (by
    rw [← natAbs_f64Units, Int.natAbs_eq_zero] at h
    rw [f64Value, h, Int.cast_zero, zero_div])
  have hlt : f64Mag x < 2 ^ 900 * f64Mag y := lt_two_pow_900_mul (Nat.pos_of_ne_zero hmag) (by
    rwa [hquot, abs_div, ← Int.cast_abs, ← Int.cast_abs, ← Nat.cast_natAbs, ← Nat.cast_natAbs, natAbs_f64Units,
      natAbs_f64Units] at hb)
  obtain ⟨hfin, herr⟩ := fdiv_error hx hy hmag hlt
  rw [mul_div_right_comm, ← hquot, ← f64One_cast] at herr
  exact ⟨hfin, abs_f64Value_sub_le hb herr⟩

/-! ## The rounded temperature -/

/-- The formula of R161 without rounding. -/
def exactCelsius (t : BitVec 16) : ℚ := (1852 - t.toNat) / (905 / 100) + 1921 / 100

theorem f64Value_difference (t : BitVec 16) : f64Value (f64 (1852 - (t.toNat : Int)) 1) = 1852 - t.toNat := by
  rw [f64Value, (temperatureCodeIsExact.2 t).2, div_eq_iff f64One_pos.ne', f64One_cast, Int.cast_mul, Int.cast_sub,
    Int.cast_pow, Int.cast_natCast, Int.cast_ofNat, Int.cast_ofNat]

/-- `F64(9.05)` and `F64(19.21)` are as near to their decimals as R12 rounds them. -/
theorem f64_9_05_near : f64IsFinite f64_9_05 = true ∧ |f64Value f64_9_05 - 905 / 100| ≤ 1 / 2 ^ 33 :=
  f64Value_f64 (n := 905) (d := 100) (by decide) (by norm_num [abs_le])

theorem f64_19_21_near : f64IsFinite f64_19_21 = true ∧ |f64Value f64_19_21 - 1921 / 100| ≤ 1 / 2 ^ 33 :=
  f64Value_f64 (n := 1921) (d := 100) (by decide) (by norm_num [abs_le])

/-- Dividing a code's difference by a rounded 9.05 moves the quotient by at most 10^-6. -/
theorem abs_div_sub_div_le {n y : ℚ} (hn : |n| ≤ 2 ^ 16) (hy : |y - 905 / 100| ≤ 1 / 2 ^ 33) :
    |n / y - n / (905 / 100)| ≤ 1 / 10 ^ 6 := by
  have hy9 : 9 ≤ y := by linarith [(abs_le.mp hy).1]
  have hy0 : 0 < y := by linarith
  rw [div_sub_div _ _ hy0.ne' (by norm_num), mul_comm y n, ← mul_sub, abs_div, abs_mul, abs_sub_comm,
    abs_of_pos (mul_pos hy0 (by norm_num)), div_le_iff₀ (by positivity)]
  calc |n| * |y - 905 / 100| ≤ 2 ^ 16 * (1 / 2 ^ 33) := by gcongr
    _ ≤ 1 / 10 ^ 6 * (9 * (905 / 100)) := by norm_num
    _ ≤ 1 / 10 ^ 6 * (y * (905 / 100)) := by gcongr

/-- The difference of a code lies within 2^16. -/
theorem abs_difference_le (t : BitVec 16) : |(1852 - t.toNat : ℚ)| ≤ 2 ^ 16 := by
  have hlt : (t.toNat : ℚ) < 2 ^ 16 := by exact_mod_cast t.isLt
  have hnonneg : (0 : ℚ) ≤ t.toNat := Nat.cast_nonneg _
  rw [abs_le]
  constructor <;> linarith

/-- The temperature is finite, and the roundings move it by at most 10^-5 in all. -/
theorem tempCelsius_near (t : BitVec 16) :
    f64IsFinite (tempCelsius t) = true ∧ |f64Value (tempCelsius t) - exactCelsius t| ≤ 1 / 10 ^ 5 := by
  obtain ⟨hfin9, h9⟩ := f64_9_05_near
  obtain ⟨hfin19, h19⟩ := f64_19_21_near
  have hn := abs_difference_le t
  have hexact : |f64Value (f64 (1852 - (t.toNat : Int)) 1) / f64Value f64_9_05 - (1852 - t.toNat) / (905 / 100)|
      ≤ 1 / 10 ^ 6 := by
    rw [f64Value_difference]
    exact abs_div_sub_div_le hn h9
  have hquot : |(1852 - t.toNat : ℚ) / (905 / 100)| ≤ 2 ^ 16 := by
    rw [abs_div, abs_of_pos (by norm_num : (0 : ℚ) < 905 / 100)]
    exact (div_le_self (abs_nonneg _) (by norm_num)).trans hn
  rw [abs_le] at h9 h19 hexact hquot
  obtain ⟨hfinq, hq⟩ := f64Value_fdiv (temperatureCodeIsExact.2 t).1 hfin9 (by linarith)
    (abs_le.mpr (by constructor <;> linarith))
  rw [abs_le] at hq
  obtain ⟨hfin, hs⟩ := f64Value_fadd hfinq hfin19 (abs_le.mpr (by constructor <;> linarith))
  rw [abs_le] at hs
  refine ⟨hfin, ?_⟩
  rw [exactCelsius, tempCelsius, abs_le]
  constructor <;> linarith

/-- The formula without rounding falls by 1 / 9.05 from each code to the next. -/
theorem exactCelsius_succ {t : BitVec 16} (h : t.toNat < 65535) :
    exactCelsius t - exactCelsius (t + 1) = 1 / (905 / 100) := by
  have hone : (1 : BitVec 16).toNat = 1 := rfl
  have hsucc : (t + 1).toNat = t.toNat + 1 := BitVec.toNat_add_of_lt (by omega)
  rw [exactCelsius, exactCelsius, hsucc, Nat.cast_add_one]
  ring

/-- Settles O34: the two results are within 10^-5 of the formula, so their fall is within 2 * 10^-5 of 1 / 9.05. -/
theorem temperatureStrictlyDecreases : Obligations.TemperatureStrictlyDecreases := by
  refine ⟨fun t => (tempCelsius_near t).1, fun t ht => ?_⟩
  have hfall := exactCelsius_succ ht
  obtain ⟨hlo, hhi⟩ := abs_le.mp (tempCelsius_near t).2
  obtain ⟨hlo', hhi'⟩ := abs_le.mp (tempCelsius_near (t + 1)).2
  have hone : (2 : Int) ^ 1074 = (f64One : Nat) := by rw [f64One, Nat.cast_pow, Nat.cast_ofNat]
  rw [hone, ← Int.cast_lt (R := ℚ), ← Int.cast_lt (R := ℚ)]
  simp only [Int.cast_mul, Int.cast_sub, Int.cast_ofNat, Int.cast_natCast]
  rw [← f64Value_mul_f64One, ← f64Value_mul_f64One, ← sub_mul, ← mul_assoc]
  constructor
  · exact mul_lt_mul_of_pos_right (by linarith) f64One_pos
  · exact mul_lt_mul_of_pos_right (by linarith) f64One_pos

end Sys2Proof.Machine

/-! PROOFS. 44_axes.md: R180 and R182, the axis decoder; R183 to R186, the four commands; R187, three single-axis reads
that mix two samples. The decoder rests on one equation: 16 times the decode, plus the low 4 bits of the group, is the
group read as a 24-bit two's-complement number. It says all of R182, and as `axisSample` meets it too, it gives R180. -/

namespace Sys2Proof.Machine

/-! ## The axis decoder -/

/-- The 24-bit group of three bytes, most significant first, as a natural number (R180). -/
def axisGroup (b3 b2 b1 : Byte) : Nat := b3.toNat * 65536 + b2.toNat * 256 + b1.toNat

/-- A 24-bit number read as two's complement. -/
def signed24 (g : Nat) : Int := if g < 0x800000 then g else (g : Int) - 0x1000000

theorem axisGroup_lt (b3 b2 b1 : Byte) : axisGroup b3 b2 b1 < 0x1000000 := by
  have h3 := b3.isLt
  have h2 := b2.isLt
  have h1 := b1.isLt
  unfold axisGroup
  omega

theorem append_toNat_eq_axisGroup (b3 b2 b1 : Byte) : (b3 ++ b2 ++ b1).toNat = axisGroup b3 b2 b1 := by
  have h2 := b2.isLt
  have h1 := b1.isLt
  rw [BitVec.toNat_append, BitVec.toNat_append, ← Nat.shiftLeft_add_eq_or_of_lt h1, ← Nat.shiftLeft_add_eq_or_of_lt h2,
    Nat.shiftLeft_eq, Nat.shiftLeft_eq]
  unfold axisGroup
  omega

/-- Every 24-bit number is the group of three bytes. -/
theorem exists_axisGroup_eq {g : Nat} (h : g < 0x1000000) : ∃ b3 b2 b1 : Byte, axisGroup b3 b2 b1 = g := by
  refine ⟨BitVec.ofNat 8 (g / 65536), BitVec.ofNat 8 (g / 256), BitVec.ofNat 8 g, ?_⟩
  simp only [axisGroup, BitVec.toNat_ofNat]
  omega

/-- R182: the decoder never wraps. -/
theorem decodeAxis_mul_add (b3 b2 b1 : Byte) :
    decodeAxis b3 b2 b1 * 16 + ((axisGroup b3 b2 b1 % 16 : Nat) : Int) = signed24 (axisGroup b3 b2 b1) := by
  have hlt := axisGroup_lt b3 b2 b1
  have hdecode : decodeAxis b3 b2 b1 = if (axisGroup b3 b2 b1 >>> 4).testBit 19 then
    ((axisGroup b3 b2 b1 >>> 4 : Nat) : Int) - 1048576 else ((axisGroup b3 b2 b1 >>> 4 : Nat) : Int) := rfl
  simp only [hdecode, signed24, Nat.testBit_eq_decide_div_mod_eq, Nat.shiftRight_eq_div_pow, decide_eq_true_eq]
  split <;> split <;> omega

/-- R68: the sign extension of bits 23:4 meets the same equation. -/
theorem axisSample_mul_add (b3 b2 b1 : Byte) :
    axisSample b3 b2 b1 * 16 + ((axisGroup b3 b2 b1 % 16 : Nat) : Int) = signed24 (axisGroup b3 b2 b1) := by
  have hlt := axisGroup_lt b3 b2 b1
  simp only [axisSample, signed24, BitVec.toInt_eq_toNat_cond, BitVec.extractLsb'_toNat, append_toNat_eq_axisGroup,
    Nat.shiftRight_eq_div_pow]
  split <;> split <;> omega

/-- R180: the decode is the sign extension of bits 23:4. -/
theorem decodeAxis_eq_axisSample : decodeAxis = axisSample := by
  funext b3 b2 b1
  have hdecode := decodeAxis_mul_add b3 b2 b1
  have hsample := axisSample_mul_add b3 b2 b1
  omega

theorem decodeAxis_bounds (b3 b2 b1 : Byte) : -524288 ≤ decodeAxis b3 b2 b1 ∧ decodeAxis b3 b2 b1 ≤ 524287 := by
  simpa [isInt20] using isInt20_decodeAxis b3 b2 b1

/-- R180: the low 4 bits are padding. -/
theorem decodeAxis_eq_of_high_nibble (b3 b2 : Byte) {b1 b1' : Byte} (h : b1.extractLsb' 4 4 = b1'.extractLsb' 4 4) :
    decodeAxis b3 b2 b1 = decodeAxis b3 b2 b1' := by
  have hnibble := congrArg BitVec.toNat h
  simp only [BitVec.extractLsb'_toNat, Nat.shiftRight_eq_div_pow] at hnibble
  have hlt := b1.isLt
  have hlt' := b1'.isLt
  have hgroup : axisGroup b3 b2 b1 / 16 = axisGroup b3 b2 b1' / 16 := by unfold axisGroup; omega
  have hdecode := decodeAxis_mul_add b3 b2 b1
  have hdecode' := decodeAxis_mul_add b3 b2 b1'
  unfold signed24 at hdecode hdecode'
  split at hdecode <;> split at hdecode' <;> omega

/-- R180: every value of the range arises. -/
theorem exists_decodeAxis_eq {v : Int} (hlo : -524288 ≤ v) (hhi : v ≤ 524287) :
    ∃ b3 b2 b1 : Byte, decodeAxis b3 b2 b1 = v := by
  obtain ⟨b3, b2, b1, hg⟩ := exists_axisGroup_eq (g := (v * 16 % 0x1000000).toNat) (by omega)
  have hdecode := decodeAxis_mul_add b3 b2 b1
  rw [hg] at hdecode
  refine ⟨b3, b2, b1, ?_⟩
  unfold signed24 at hdecode
  split at hdecode <;> omega

/-- Settles O29: the equation determines the decode. -/
theorem axisDecodeIsSignExtension : Obligations.AxisDecodeIsSignExtension := by
  refine ⟨fun b3 b2 b1 => ⟨?_, decodeAxis_bounds b3 b2 b1⟩, fun b3 b2 _ _ => decodeAxis_eq_of_high_nibble b3 b2,
    fun _ => exists_decodeAxis_eq⟩
  rw [decodeAxis_eq_axisSample]

/-- Settles O30: the equation, solved for the group at each of the four values. -/
theorem axisDecodeExtremes : Obligations.AxisDecodeExtremes := by
  intro b3 b2 b1 g v
  have hlt : g < 0x1000000 := axisGroup_lt b3 b2 b1
  have hv : v * 16 + ((g % 16 : Nat) : Int) = if g < 0x800000 then (g : Int) else (g : Int) - 0x1000000 :=
    decodeAxis_mul_add b3 b2 b1
  refine ⟨hv, ?_⟩
  clear_value g v
  split at hv <;> omega

/-! ## The four commands -/

/-- The nine registers of one AXES block, R30. -/
def axesRegs : List RegAddr := [0x08, 0x09, 0x0A, 0x0B, 0x0C, 0x0D, 0x0E, 0x0F, 0x10]

/-- The samples of the three axes, of the registers of one instant (R181). -/
def axesSamples (r : RegAddr → Byte) : Int × Int × Int :=
  (axisSample (r 0x08) (r 0x09) (r 0x0A), axisSample (r 0x0B) (r 0x0C) (r 0x0D),
    axisSample (r 0x0E) (r 0x0F) (r 0x10))

theorem decodeAxes_axesRegs (r : RegAddr → Byte) : decodeAxes (axesRegs.map r) = some (axesSamples r) := by
  rw [axesSamples, ← decodeAxis_eq_axisSample]
  rfl

/-- R46: the block at AXES is the nine registers. -/
theorem readRegs_axes (m : Memory) (d : DevAddr) : readRegs m d regAxes 9 = axesRegs.map (readReg m d) := rfl

section AxesCommand
variable {i : Instr} {value : Int × Int × Int → Value} (hcode : ∀ d, codeOf i d = codeAxesRead value d)
include hcode

theorem accepts_axesRead : Accepts i (encode i) :=
  accepts_of_txn fun d => ⟨.rdBlk d regAxes 9, by rw [hcode]; rfl⟩

/-- R183 to R186: the one block read ends the command with its value of the three samples. -/
theorem readsBlock_axesRead : ReadsBlock i regAxes axesRegs fun r => value (axesSamples r) := by
  refine readsBlock_of_code (fun d => by rw [hcode]; rfl) readRegs_axes fun d m => ?_
  have hlanes := decodeAxes_axesRegs (readReg m d)
  rw [hcode]
  unfold codeAxesRead
  simp only [hlanes]

end AxesCommand

theorem codeOf_getAxes (d : DevAddr) :
    codeOf .getAxes d = codeAxesRead (fun lanes => .axes lanes.1 lanes.2.1 lanes.2.2) d := rfl

theorem codeOf_getAxisX (d : DevAddr) : codeOf .getAxisX d = codeAxesRead (fun lanes => .int20 lanes.1) d := rfl

theorem codeOf_getAxisY (d : DevAddr) : codeOf .getAxisY d = codeAxesRead (fun lanes => .int20 lanes.2.1) d := rfl

theorem codeOf_getAxisZ (d : DevAddr) : codeOf .getAxisZ d = codeAxesRead (fun lanes => .int20 lanes.2.2) d := rfl

/-- Settles O27: the value is the triple of the samples. -/
theorem getAxesReturnsTheTriple : Obligations.GetAxesReturnsTheTriple :=
  ⟨accepts_axesRead codeOf_getAxes, readsBlock_axesRead codeOf_getAxes⟩

/-- Settles O28: the value is one of the samples. -/
theorem getAxisReturnsOneLane : Obligations.GetAxisReturnsOneLane :=
  ⟨⟨accepts_axesRead codeOf_getAxisX, readsBlock_axesRead codeOf_getAxisX⟩,
    ⟨accepts_axesRead codeOf_getAxisY, readsBlock_axesRead codeOf_getAxisY⟩,
    accepts_axesRead codeOf_getAxisZ, readsBlock_axesRead codeOf_getAxisZ⟩

/-! ## Three single-axis reads -/

/-- A block-reading command presented to an `Idle` codec, its read served by a listed turn. -/
theorem run_readBlock {s : State} {i : Instr} {w : CmdWord} {ws : List CmdWord} {start : RegAddr} {regs : List RegAddr}
    {value : (RegAddr → Byte) → Value} {acts : List RegWrite} {ts : List Turn} (hd : decode w = .command i)
    (ha : Accepts i w) (hr : ReadsBlock i start regs value) (hs : s.seq = .idle) (hh : s.host = w :: ws)
    (he : s.env = ⟨acts, .serve⟩ :: ts) (k : Nat) :
    core.run (k + 2) s = core.run k { s with
      host := ws, env := ts, mem := applyActs acts s.mem,
      trace := s.trace ++ [.cmd w,
        .txn (.rdBlk s.devAddr start regs.length) (.bytes (regs.map (readReg (applyActs acts s.mem) s.devAddr))),
        .res (.ok (value (readReg (applyActs acts s.mem) s.devAddr)))] } := by
  refine (run_succ ((step_of_idle hs hh hd).trans (ha (s.withHost ws) hs))).trans ?_
  refine (run_succ ((step_of_busy rfl hd).trans ((hr _ w acts rfl).1 ?_))).trans ?_
  · exact State.nextTurn_of_env he
  · simp [State.afterTxn, State.withHost, he, hs]

/-- An `Idle` codec at the default address with history `es`. -/
def idleState (m : Memory) (ws : List CmdWord) (ts : List Turn) (es : List Event) : State :=
  { State.create Config.defaultDevAddr m ws ts with trace := es }

/-- What a single-axis command with word `w` records that reads the block `bs` and returns `v`. -/
def axisEvents (w : CmdWord) (bs : List Byte) (v : Int) : List Event :=
  [.cmd w, .txn (.rdBlk Config.defaultDevAddr regAxes 9) (.bytes bs), .res (.ok (.int20 v))]

/-- A single-axis command presented, the environment's steps leaving the register space `m'` and the block read being
`bs`. -/
theorem run_getAxis {i : Instr} {lane : Int × Int × Int → Int}
    (hcode : ∀ d, codeOf i d = codeAxesRead (fun lanes => .int20 (lane lanes)) d) {m m' : Memory} {acts : List RegWrite}
    {ws : List CmdWord} {ts : List Turn} {es : List Event} {bs : List Byte} {lanes : Int × Int × Int}
    (hm : applyActs acts m = m') (hblock : axesRegs.map (readReg m' Config.defaultDevAddr) = bs)
    (hlanes : decodeAxes bs = some lanes) (k : Nat) :
    core.run (k + 2) (idleState m (encode i :: ws) (⟨acts, .serve⟩ :: ts) es) =
      core.run k (idleState m' ws ts (es ++ axisEvents (encode i) bs (lane lanes))) := by
  subst hm hblock
  obtain rfl := Option.some.inj ((decodeAxes_axesRegs _).symm.trans hlanes)
  exact run_readBlock (decode_encode i) (accepts_axesRead hcode) (readsBlock_axesRead hcode) rfl rfl rfl k

/-- The register space of a sensor that holds the sample (0, 0, 0). -/
def zerosMem : Memory := axesRegs.map fun r => (location Config.defaultDevAddr r, 0x00)

/-- The environment's steps that make the sample (1, 1, 1) of it (L2-A, coherence). -/
def toOnes : List RegWrite :=
  [⟨Config.defaultDevAddr, 0x0A, 0x10⟩, ⟨Config.defaultDevAddr, 0x0D, 0x10⟩, ⟨Config.defaultDevAddr, 0x10, 0x10⟩]

/-- The block of the sample (1, 1, 1). -/
def onesBlock : List Byte := [0x00, 0x00, 0x10, 0x00, 0x00, 0x10, 0x00, 0x00, 0x10]

theorem readReg_zerosMem :
    ∀ r : RegAddr, 0x08 ≤ r → r ≤ 0x10 → readReg zerosMem Config.defaultDevAddr r = 0x00 := by
  decide +kernel

theorem block_zerosMem : axesRegs.map (readReg zerosMem Config.defaultDevAddr) = List.replicate 9 0x00 := by
  decide +kernel

theorem block_toOnes : axesRegs.map (readReg (applyActs toOnes zerosMem) Config.defaultDevAddr) = onesBlock := by
  decide +kernel

theorem decodeAxes_zeros : decodeAxes (List.replicate 9 0x00) = some (0, 0, 0) := by decide

theorem decodeAxes_onesBlock : decodeAxes onesBlock = some (1, 1, 1) := by decide

/-- The sample (0, 0, 0), the three commands to come, and the sample to change after the first of them. -/
def mixedStart : State :=
  idleState zerosMem [encode .getAxisX, encode .getAxisY, encode .getAxisZ]
    [⟨[], .serve⟩, ⟨toOnes, .serve⟩, ⟨[], .serve⟩] []

/-- The sample (1, 1, 1), and the history of the three commands. -/
def mixedEnd : State :=
  idleState (applyActs toOnes zerosMem) [] [] (axisEvents (encode .getAxisX) (List.replicate 9 0x00) 0 ++
    axisEvents (encode .getAxisY) onesBlock 1 ++ axisEvents (encode .getAxisZ) onesBlock 1)

theorem run_mixedStart : core.run 6 mixedStart = .next mixedEnd := by
  unfold mixedStart
  rw [run_getAxis codeOf_getAxisX (applyActs_nil _) block_zerosMem decodeAxes_zeros,
    run_getAxis codeOf_getAxisY rfl block_toOnes decodeAxes_onesBlock,
    run_getAxis codeOf_getAxisZ (applyActs_nil _) block_toOnes decodeAxes_onesBlock]
  rfl

/-- Settles O31: the first read gives the sample (0, 0, 0), the two later ones (1, 1, 1). -/
theorem singleAxisReadsMayMixSamples : Obligations.SingleAxisReadsMayMixSamples := by
  refine ⟨mixedStart, mixedEnd, rfl, rfl, rfl, rfl, readReg_zerosMem, ?_, run_mixedStart, rfl, rfl, rfl⟩
  simp [mixedStart, idleState, State.create, toOnes]

end Sys2Proof.Machine

/-! PROOFS. 60_exceptions.md: what a step records at most, when the codec takes an answer as a failure, and the one way
each of the three errors of R200 is raised. -/

namespace Sys2Proof.Machine

/-! ## What a step records -/

/-- The events a step added, read off the history after it. -/
theorem State.newEvents_of_trace {s t : State} {es : List Event} (h : t.trace = s.trace ++ es) :
    t.newEvents s = es := by
  simp [State.newEvents, h]

/-- A command's step records at most one result, as its last event (R200). -/
theorem ExecStep.countP_isRes {i : Instr} {s t : State} (h : ExecStep i s t) :
    (t.newEvents s).countP Event.isRes ≤ 1 ∧ (t.newEvents s).dropLast.countP Event.isRes = 0 := by
  cases h <;> simp [State.newEvents, Event.isRes]

/-- Every step of the machine records at most one result, as its last event (R200). -/
theorem countP_isRes_of_step {s t : State} (h : step s = .next t) :
    (t.newEvents s).countP Event.isRes ≤ 1 ∧ (t.newEvents s).dropLast.countP Event.isRes = 0 := by
  rcases step_next h with ⟨-, -, rfl⟩ | ⟨w, ws, -, -, -, rfl⟩ | ⟨w, ws, i, -, -, -, he⟩ | ⟨cmd, k, buf, i, -, -, he⟩
  · simp [State.newEvents]
  · simp [State.newEvents, Event.isRes]
  · exact he.countP_isRes
  · exact he.countP_isRes

/-! ## The steps of an `Idle` codec -/

/-- An `Idle` codec's step always answers a next state. -/
theorem step_next_of_idle {s : State} (hs : s.seq = .idle) : ∃ t, step s = .next t := by
  cases hh : s.host with
  | nil => exact ⟨s, step_of_idle_nil hs hh⟩
  | cons w ws =>
    cases hd : decode w with
    | command i => exact step_of_idle hs hh hd ▸ exec_next_of_idle i hs
    | illegal why => exact ⟨_, step_of_idle_illegal hs hh (by rw [hd]; rfl)⟩

/-- An `Idle` codec's step records no transaction (R36). -/
theorem countP_isTxn_of_idle {s t : State} (hs : s.seq = .idle) (h : step s = .next t) :
    (t.newEvents s).countP Event.isTxn = 0 := by
  refine List.countP_eq_zero.mpr fun e he ht => ?_
  match e, ht with
  | .txn tx a, _ =>
    obtain ⟨cmd, k, buf, i, hb, -⟩ := step_txn_recorded h he
    simp [hs] at hb

/-- A command taken by an `Idle` codec uses no turn of the environment and changes no register (R36). -/
theorem ExecStep.env_mem_of_idle {i : Instr} {s t : State} (h : ExecStep i s t) (hs : s.seq = .idle) :
    t.env = s.env ∧ t.draws = s.draws ∧ t.mem = s.mem := by
  cases h with
  | accepted | rejected => exact ⟨rfl, rfl, rfl⟩
  | waiting cmd k buf tx hb | failed cmd k buf tx a m hb | moved cmd k buf tx a m bs tx' hb
  | returned cmd k buf tx a m bs v hb => simp [hs] at hb

/-- An `Idle` codec's step uses no turn of the environment and changes no register (R36, R205). -/
theorem env_mem_of_idle {s t : State} (hs : s.seq = .idle) (h : step s = .next t) :
    t.env = s.env ∧ t.draws = s.draws ∧ t.mem = s.mem := by
  rcases step_next h with ⟨-, -, rfl⟩ | ⟨w, ws, -, -, -, rfl⟩ | ⟨w, ws, i, -, -, -, he⟩ | ⟨cmd, k, buf, i, hb, -⟩
  · exact ⟨rfl, rfl, rfl⟩
  · exact ⟨rfl, rfl, rfl⟩
  · exact he.env_mem_of_idle hs
  · simp [hs] at hb

/-! ## When an answer counts as a failure -/

/-- The answers that end a command with TransportError: `Fail`, and a block of another length than asked for (R202,
R57). -/
def BadAnswer (t : Txn) (a : Answer) : Prop :=
  a = .fail ∨ ∃ d r n bs, t = .rdBlk d r n ∧ a = .bytes bs ∧ bs.length ≠ n

/-- The codec takes neither of the two. -/
theorem BadAnswer.acceptedBytes_eq_none {t : Txn} {a : Answer} (h : BadAnswer t a) : acceptedBytes t a = none := by
  rcases h with rfl | ⟨d, r, n, bs, rfl, rfl, hn⟩
  · cases t <;> rfl
  · exact if_neg hn

/-- The codec takes every served answer (R51). -/
theorem acceptedBytes_serveTxn (t : Txn) (m : Memory) : acceptedBytes t (serveTxn t m).1 ≠ none := by
  cases t with
  | rdB | wrB => simp [serveTxn, acceptedBytes]
  | rdBlk => simp [serveTxn, acceptedBytes, readRegs]

theorem failTxn_answer (left : Byte) (t : Txn) (m : Memory) : (failTxn left t m).1 = .fail := by
  cases t <;> rfl

/-- A draw of the wrong length gives a block read that answer, and is served where it has no meaning (R57, log 6). -/
theorem badLengthTxn_eq (bs : List Byte) (t : Txn) (m : Memory) : badLengthTxn bs t m = serveTxn t m ∨
    ∃ d r n, t = .rdBlk d r n ∧ bs.length ≠ n ∧ badLengthTxn bs t m = (.bytes bs, m) := by
  cases t with
  | rdB | wrB => exact .inl rfl
  | rdBlk d r n =>
    by_cases hn : bs.length = n
    · exact .inl (if_pos hn)
    · exact .inr ⟨d, r, n, rfl, hn, if_neg hn⟩

/-- Of the environment's answers the codec refuses only those two. -/
theorem badAnswer_of_answerTxn {draw : Draw} {t : Txn} {m m' : Memory} {a : Answer}
    (ha : answerTxn draw t m = some (a, m')) (hb : acceptedBytes t a = none) : BadAnswer t a := by
  have hserve (h : serveTxn t m = (a, m')) : BadAnswer t a :=
    absurd ((congrArg (fun p => acceptedBytes t p.1) h).trans hb) (acceptedBytes_serveTxn t m)
  cases draw with
  | wait => simp [answerTxn] at ha
  | serve => exact hserve (Option.some.inj ha)
  | fail left =>
    have hfail : failTxn left t m = (a, m') := Option.some.inj ha
    exact .inl ((congrArg Prod.fst hfail).symm.trans (failTxn_answer left t m))
  | badLength bs =>
    have hbad : badLengthTxn bs t m = (a, m') := Option.some.inj ha
    rcases badLengthTxn_eq bs t m with heq | ⟨d, r, n, rfl, hn, heq⟩
    · exact hserve (heq.symm.trans hbad)
    · cases heq.symm.trans hbad
      exact .inr ⟨d, r, n, bs, rfl, rfl, hn⟩

/-- A command whose transaction is badly answered ends with TransportError, that transaction its last (R202, R57). -/
theorem exec_of_badAnswer {i : Instr} {s : State} {w : CmdWord} {k : Nat} {buf : List Byte} {t : Txn} {a : Answer}
    {m : Memory} (hs : s.seq = .busy w k buf) (hc : codeOf i s.devAddr k buf = .txn t)
    (ha : answerTxn s.nextTurn.draw t (applyActs s.nextTurn.acts s.mem) = some (a, m)) (hb : BadAnswer t a) :
    exec i s = .next (s.afterTxn .idle m [.txn t a, .res (.err .transportError)]) := by
  rw [← State.afterActs_mem] at ha
  rw [exec_eq_next_iff.mpr (.failed w k buf t a m hs hc ha hb.acceptedBytes_eq_none)]
  simp [State.afterActs_eq, State.afterTxn, State.withMem, State.record, State.finish, State.withSeq]

/-! ## The one way each error is raised -/

/-- A command's step that records an error has found its operand illegal before any transaction, or its transaction
badly answered. -/
theorem ExecStep.err_recorded {i : Instr} {s t : State} {k : ErrKind} (h : ExecStep i s t)
    (hk : .res (.err k) ∈ t.newEvents s) :
    (k = .invalidArgument ∧ s.seq = .idle ∧ codeOf i s.devAddr 0 [] = .raise .invalidArgument ∧
      t.newEvents s = [.cmd (encode i), .res (.err .invalidArgument)]) ∨
    (k = .transportError ∧ s.seq ≠ .idle ∧ t.seq = .idle ∧
      ∃ tx a, BadAnswer tx a ∧ t.newEvents s = [.txn tx a, .res (.err .transportError)]) := by
  cases h with
  | accepted | waiting | moved | returned => simp [State.newEvents] at hk
  | rejected hs hc =>
    have hkind : k = .invalidArgument := by simpa [State.newEvents] using hk
    exact .inl ⟨hkind, hs, hc, State.newEvents_of_trace (by simp)⟩
  | failed cmd n buf tx a m hs hc ha hb =>
    have hkind : k = .transportError := by simpa [State.newEvents] using hk
    exact .inr ⟨hkind, by simp [hs], rfl, tx, a, badAnswer_of_answerTxn ha hb, State.newEvents_of_trace (by simp)⟩

/-- A pseudocode that raises an error is a setter's with an illegal operand, and does so for every sensor (R201). -/
theorem setter_of_codeOf_raise {i : Instr} {d : DevAddr} {k : Nat} {buf : List Byte} {e : ErrKind}
    (h : codeOf i d k buf = .raise e) : (∀ d', codeOf i d' 0 [] = .raise .invalidArgument) ∧
      ((∃ a : Byte, i = .setRange a ∧ a ∉ ([1, 2, 3] : List Byte)) ∨ ∃ a : Byte, i = .setFilter a ∧ 10 < a.toNat) := by
  obtain ⟨-, -, -, ⟨a, rfl, ha⟩ | ⟨a, rfl, ha⟩⟩ := codeOf_raise h
  · have hinvalid := Bool.eq_false_iff.mp ha
    exact ⟨codeOf_setRange_of_invalid hinvalid, .inl ⟨a, rfl, mt validRange_iff.mpr hinvalid⟩⟩
  · have hgt : 10 < a.toNat := Nat.lt_of_not_le (mt validFilter_iff.mpr (Bool.eq_false_iff.mp ha))
    exact ⟨codeOf_setFilter_of_gt hgt, .inr ⟨a, rfl, hgt⟩⟩

/-- The step from `s` to `t` raises an error of this kind, in the one way there is. -/
inductive ErrorStep (s t : State) : ErrKind → Prop where
  /-- The word presented decodes to no command (R204). -/
  | illegalWord (w : CmdWord) (ws : List CmdWord) (hs : s.seq = .idle) (hh : s.host = w :: ws)
      (hd : (decode w).isCommand = false) (he : t.newEvents s = [.cmd w, .res (.err .illegalCommand)]) :
      ErrorStep s t .illegalCommand
  /-- The word presented is a command whose pseudocode raises at once (R201). -/
  | illegalOperand (w : CmdWord) (ws : List CmdWord) (i : Instr) (hs : s.seq = .idle) (hh : s.host = w :: ws)
      (hd : decode w = .command i) (hc : ∀ d, codeOf i d 0 [] = .raise .invalidArgument)
      (he : t.newEvents s = [.cmd w, .res (.err .invalidArgument)]) : ErrorStep s t .invalidArgument
  /-- A transaction of the command in progress is badly answered (R202, R57). -/
  | badAnswer (tx : Txn) (a : Answer) (ht : t.seq = .idle) (hb : BadAnswer tx a)
      (he : t.newEvents s = [.txn tx a, .res (.err .transportError)]) : ErrorStep s t .transportError

/-- The inversion lemma of a step that records an error. -/
theorem step_err_recorded {s t : State} {k : ErrKind} (h : step s = .next t)
    (hk : .res (.err k) ∈ t.newEvents s) : ErrorStep s t k := by
  rcases step_next h with ⟨-, -, rfl⟩ | ⟨w, ws, hs, hh, hd, rfl⟩ | ⟨w, ws, i, hs, hh, hd, he⟩ |
    ⟨cmd, n, buf, i, hs, -, he⟩
  · simp [State.newEvents] at hk
  · obtain rfl : k = .illegalCommand := by simpa [State.newEvents] using hk
    exact .illegalWord w ws hs hh hd (State.newEvents_of_trace (by simp))
  · rcases he.err_recorded hk with ⟨rfl, -, hc, hev⟩ | ⟨-, hbusy, -⟩
    · exact .illegalOperand w ws i hs hh hd (setter_of_codeOf_raise hc).1 (encode_of_decode hd ▸ hev)
    · exact absurd hs hbusy
  · rcases he.err_recorded hk with ⟨-, hidle, -⟩ | ⟨rfl, -, ht, tx, a, hb, hev⟩
    · simp [hs] at hidle
    · exact .badAnswer tx a ht hb hev

/-- A word or an operand found illegal is reported by an `Idle` codec, with the same events in every environment
(R205). -/
theorem ErrorStep.same_in_every_env {s t : State} {k : ErrKind} (h : ErrorStep s t k) (hk : k ≠ .transportError) :
    s.seq = .idle ∧ ∀ (env : List Turn) (draws : Nat), ∃ u, step { s with env := env, draws := draws } = .next u ∧
      u.newEvents { s with env := env, draws := draws } = t.newEvents s := by
  cases h with
  | illegalWord w ws hs hh hd he =>
    exact ⟨hs, fun _ _ => ⟨_, step_rejectsWord hs hh hd, (State.newEvents_of_trace rfl).trans he.symm⟩⟩
  | illegalOperand w ws i hs hh hd hc he =>
    exact ⟨hs, fun _ _ => ⟨_, step_rejectsArgument hs hh hd hc, (State.newEvents_of_trace rfl).trans he.symm⟩⟩
  | badAnswer => exact absurd rfl hk

/-! ## The rules of the errors -/

/-- Settles O40: the table of codes is the definition's. -/
theorem resultCodes : Obligations.ResultCodes := ⟨fun _ => rfl, rfl, rfl, rfl⟩

/-- Settles O9: of the three ways an error is raised, the presented word's is the one that gives IllegalCommand. -/
theorem illegalWordGivesIllegalCommand : Obligations.IllegalWordGivesIllegalCommand := by
  refine ⟨rfl, fun s w ws hs hh hd => step_rejectsWord hs hh hd, fun s t h hk => ?_⟩
  cases step_err_recorded h hk with
  | illegalWord w ws hs hh hd => exact ⟨hs, w, ws, hh, hd⟩

/-- Settles O36: a setter's check is its pseudocode's first point, and only an `Idle` codec's step comes to a `raise`. -/
theorem invalidArgumentOnlyFromSetters : Obligations.InvalidArgumentOnlyFromSetters := by
  obtain ⟨hrange, -⟩ := setRangeReplacesTheCode
  obtain ⟨hfilter, -⟩ := setFilterReplacesTheCode
  refine ⟨rfl, hrange, hfilter, fun i s t h hk => ?_⟩
  rcases (exec_next h).err_recorded hk with ⟨-, hs, hc, hev⟩ | ⟨hkind, -⟩
  · obtain ⟨-, -, hmem⟩ := (exec_next h).env_mem_of_idle hs
    exact ⟨hmem, by simp [hev, Event.isTxn], (setter_of_codeOf_raise hc).2⟩
  · cases hkind

/-- Settles O37: both answers are bad ones, and a failed read leaves the register space as the environment's steps left
it. -/
theorem failedTransactionGivesTransportError : Obligations.FailedTransactionGivesTransportError := by
  refine ⟨rfl, fun i s w k buf t acts hs hc => ⟨fun left hn => ?_, fun d r n bs ht hlen hn => ?_⟩⟩
  · have ha : answerTxn s.nextTurn.draw t (applyActs s.nextTurn.acts s.mem) =
        some (.fail, (failTxn left t (applyActs acts s.mem)).2) := by
      rw [hn, ← failTxn_answer left t (applyActs acts s.mem)]
      rfl
    refine ⟨_, exec_of_badAnswer hs hc ha (.inl rfl), fun hread => ?_⟩
    rw [hn] at ha
    exact answerTxn_mem_of_ne_wrB hread ha
  · have ha : answerTxn s.nextTurn.draw t (applyActs s.nextTurn.acts s.mem) =
        some (.bytes bs, applyActs acts s.mem) := by
      rw [hn, ht]
      exact congrArg some (if_neg hlen)
    exact exec_of_badAnswer hs hc ha (.inr ⟨d, r, n, bs, ht, rfl, hlen⟩)

/-- Settles O38: of the three ways an error is raised, the bad answer's is the one that gives TransportError. -/
theorem transportErrorOnlyFromAFailedTransaction : Obligations.TransportErrorOnlyFromAFailedTransaction := by
  intro s t h hk
  cases step_err_recorded h hk with
  | badAnswer tx a ht hb hev => exact ⟨tx, a, hev, ht, hb⟩

/-- Settles O39: an `Idle` codec never comes to the bus, and its two errors are raised by such a codec only. -/
theorem errorsAreCheckedBeforeTheBus : Obligations.ErrorsAreCheckedBeforeTheBus := by
  refine ⟨fun s t hs h => ?_, fun s w ws hs hh => ?_, fun s t k h hkind hk => ?_, fun s t h => countP_isRes_of_step h⟩
  · obtain ⟨henv, hdraws, hmem⟩ := env_mem_of_idle hs h
    exact ⟨henv, hdraws, hmem, countP_isTxn_of_idle hs h⟩
  · obtain ⟨t, ht⟩ := step_next_of_idle hs
    obtain ⟨hword, hrange, hfilter, -⟩ := acceptingACommand.1 s w ws hs hh
    have reported {k : ErrKind} (he : step s = .next
        { s with host := ws, trace := s.trace ++ [.cmd w, .res (.err k)] }) : .res (.err k) ∈ t.newEvents s := by
      cases ht.symm.trans he
      simp [State.newEvents]
    exact ⟨t, ht, fun hd => reported (hword hd), fun a hd ha => reported (hrange a hd ha),
      fun a hd ha => reported (hfilter a hd ha)⟩
  · have hne : k ≠ .transportError := by rintro rfl; simp at hkind
    exact (step_err_recorded h hk).same_in_every_env hne

end Sys2Proof.Machine

/-! PROOFS. 70_reset_and_hazards.md: the register space at reset (R231), and a transaction that waits for its answer
(R238, I17). -/

namespace Sys2Proof.Machine

/-- A register space that lists nothing reads as `initRegs` everywhere (R31). -/
@[simp] theorem readReg_nil (d : DevAddr) (r : RegAddr) : readReg [] d r = Config.initRegs d r := rfl

/-- Settles O45: creation records nothing and lists no register. -/
theorem resetReadsInitRegs : Obligations.ResetReadsInitRegs := ⟨rfl, readReg_nil⟩

/-- The environment's steps alone are a turn after which the sequencer and the history stand as before. -/
theorem State.afterActs_eq_afterTxn (s : State) :
    s.afterActs = s.afterTxn s.seq (applyActs s.nextTurn.acts s.mem) [] := by
  simp [State.afterActs_eq, State.afterTxn]

/-- Settles O42: the one step of a command whose transaction gets no answer is `ExecStep.waiting`, which takes the
environment's steps only. -/
theorem unansweredTransactionWaits : Obligations.UnansweredTransactionWaits := by
  intro i s w k buf t acts hs hc hn
  have hnone : answerTxn s.nextTurn.draw t s.afterActs.mem = none := by rw [hn]; rfl
  rw [exec_eq_next_iff.mpr (.waiting w k buf t hs hc hnone), s.afterActs_eq_afterTxn, hn]

end Sys2Proof.Machine

/-! PROOFS. The invariant of the machine: it holds at creation, and every step keeps it. Each field of `Inv` has its own
lemma over the kinds of step, `ExecStep`. -/

namespace Sys2Proof.Machine

/-! ## Creation -/

/-- A codec created on a register space in canonical form has the invariant: it has done nothing yet (R24, R230). -/
theorem inv_create (d : DevAddr) {m : Memory} (ws : List CmdWord) (env : List Turn) (hm : Memory.wf m = true) :
    Inv (State.create d m ws env) where
  memory := hm
  bus _ _ ht := absurd ht List.not_mem_nil
  sequencer _ _ _ hs := by cases hs
  results := rfl

/-- Settles O47: reset is a creation on a register space that lists nothing. -/
theorem resetMeetsTheInvariant : Obligations.ResetMeetsTheInvariant := inv_create _ _ _ rfl

/-! ## What an `Idle` codec does by itself -/

/-- The host's words are no part of the invariant. -/
theorem Inv.withHost {s : State} (h : Inv s) (ws : List CmdWord) : Inv (s.withHost ws) := { h with }

/-- A word that decodes to no command is presented and has its one result (R36, R204). -/
theorem Inv.rejectWord {s : State} (h : Inv s) (hs : s.seq = .idle) (w : CmdWord) : Inv (s.rejectWord w) where
  memory := h.memory
  bus t a ht := h.bus t a (by simpa using ht)
  sequencer _ _ _ hb := by cases hb
  results := by simp [h.results, hs]

/-! ## The register space and the bus -/

/-- A command's step keeps the register space in canonical form: the environment's steps and the transaction write
registers only. -/
theorem ExecStep.mem_wf {i : Instr} {s t : State} (h : ExecStep i s t) (hm : Memory.wf s.mem = true) :
    Memory.wf t.mem = true := by
  have hacts : Memory.wf s.afterActs.mem = true := s.afterActs_mem ▸ applyActs_wf _ hm
  cases h with
  | accepted | rejected => exact hm
  | waiting => exact hacts
  | failed cmd k buf tx a m hs hc ha | moved cmd k buf tx a m bs tx' hs hc ha
  | returned cmd k buf tx a m bs v hs hc ha => exact answerTxn_wf ha hacts

/-- A transaction in the history after a command's step stood there before, or is the one the pseudocode stood before:
one of R43. -/
theorem ExecStep.bus_used {i : Instr} {s t : State} (h : ExecStep i s t)
    (hbus : ∀ tx a, .txn tx a ∈ s.trace → codecTxn s.devAddr tx = true) :
    ∀ tx a, .txn tx a ∈ t.trace → codecTxn t.devAddr tx = true := by
  intro tx a ht
  obtain ⟨es, htrace⟩ := h.trace_grows
  rw [h.devAddr_eq]
  rcases List.mem_append.mp (htrace ▸ ht) with hold | hnew
  · exact hbus tx a hold
  · obtain ⟨cmd, k, buf, -, hc⟩ := h.txn_recorded (State.newEvents_of_trace htrace ▸ hnew)
    exact codeOf_txn hc

/-! ## The command in progress -/

/-- Whether a command is in progress depends on the device address and the history only. -/
theorem InProgress.congr {s t : State} {cmd : CmdWord} {k : Nat} {buf : List Byte} (h : InProgress s cmd k buf)
    (hd : t.devAddr = s.devAddr) (ht : t.trace = s.trace) : InProgress t cmd k buf := by
  rwa [InProgress, hd, ht]

/-- A command accepted is in progress without transactions (R36). -/
theorem inProgress_accepted {i : Instr} {s : State} {tx : Txn} (hc : codeOf i s.devAddr 0 [] = .txn tx) :
    InProgress (s.record (.cmd (encode i))) (encode i) 0 [] :=
  ⟨i, tx, s.trace, [], decode_encode i, hc, rfl, rfl, .none⟩

/-- A command in progress whose transaction is accepted has one transaction more, and the accepted bytes (R38.4). -/
theorem InProgress.answered {i : Instr} {s : State} {cmd : CmdWord} {k : Nat} {buf bs : List Byte} {tx tx' : Txn}
    {a : Answer} (h : InProgress s cmd k buf) (hd : decode cmd = .command i)
    (hc : codeOf i s.devAddr k buf = .txn tx) (hb : acceptedBytes tx a = some bs)
    (hc' : codeOf i s.devAddr (k + 1) (buf ++ bs) = .txn tx') :
    InProgress (s.record (.txn tx a)) cmd (k + 1) (buf ++ bs) := by
  obtain ⟨i', -, before, es, hd', -, htrace, rfl, hans⟩ := h
  obtain rfl : i' = i := Decoded.command.inj (hd'.symm.trans hd)
  exact ⟨i', tx', before, es ++ [Event.txn tx a], hd, hc', by simp [htrace], by simp, hans.more es buf tx a bs hc hb⟩

/-- After a command's step, what the sequencer holds in progress is at a point of its pseudocode, with exactly its own
transactions in the history (R36, R38). -/
theorem ExecStep.inProgress {i : Instr} {s t : State} (h : ExecStep i s t)
    (hd : ∀ cmd k buf, s.seq = .busy cmd k buf → decode cmd = .command i)
    (hseq : ∀ cmd k buf, s.seq = .busy cmd k buf → InProgress s cmd k buf) :
    ∀ cmd k buf, t.seq = .busy cmd k buf → InProgress t cmd k buf := by
  intro cmd k buf ht
  cases h with
  | accepted tx hs hc =>
    cases ht
    exact (inProgress_accepted hc).congr rfl rfl
  | waiting =>
    exact (hseq cmd k buf (s.afterActs_seq ▸ ht)).congr s.afterActs_devAddr s.afterActs_trace
  | moved cmd' k' buf' tx a m bs tx' hs hc ha hb hc' =>
    cases ht
    have hnow := (hseq _ _ _ hs).answered (hd _ _ _ hs) hc hb hc'
    exact hnow.congr (by simp) (by simp)
  | rejected | failed | returned => cases ht

/-! ## The order of the events -/

/-- A command's step goes on with the history as it was left: the presented word while `Idle`, a transaction while
`Busy`, and the result that makes the codec `Idle` (R36, R200). -/
theorem ExecStep.follows {i : Instr} {s t : State} (h : ExecStep i s t)
    (hres : s.trace.foldl Event.follow (some false) = some (decide (s.seq ≠ .idle))) :
    t.trace.foldl Event.follow (some false) = some (decide (t.seq ≠ .idle)) := by
  cases h with
  | accepted tx hs | rejected hs => simp [hres, hs]
  | waiting => simpa using hres
  | failed cmd k buf tx a m hs | moved cmd k buf tx a m bs tx' hs | returned cmd k buf tx a m bs v hs =>
    simp [hres, hs]

/-! ## Every step -/

/-- A command's step keeps the invariant. -/
theorem ExecStep.inv {i : Instr} {s t : State} (h : ExecStep i s t) (hinv : Inv s)
    (hd : ∀ cmd k buf, s.seq = .busy cmd k buf → decode cmd = .command i) : Inv t where
  memory := h.mem_wf hinv.memory
  bus := h.bus_used hinv.bus
  sequencer := h.inProgress hd hinv.sequencer
  results := h.follows hinv.results

/-- Settles O48: by the kinds of step, of which the command's keeps the invariant field by field. -/
theorem stepKeepsTheInvariant : Obligations.StepKeepsTheInvariant := by
  intro s t hinv h
  rcases step_next h with ⟨-, -, rfl⟩ | ⟨w, ws, hs, -, -, rfl⟩ | ⟨w, ws, i, hs, -, -, he⟩ |
    ⟨cmd, k, buf, i, hs, hd, he⟩
  · exact hinv
  · exact (hinv.withHost ws).rejectWord hs w
  · refine he.inv (hinv.withHost ws) fun cmd k buf hb => ?_
    cases hs.symm.trans hb
  · refine he.inv hinv fun cmd' k' buf' hb => ?_
    cases hs.symm.trans hb
    exact hd

end Sys2Proof.Machine
